-- ==== Sys2Proof/Word.lean ====
section
/-! DEFINITION. The bit-vector types of the fixed-width ports and header fields (00_scope.md R11). -/

namespace Sys2Proof

/-- The command header `H`, 11 bits (R11, R56). -/
abbrev Header := BitVec 11

/-- The width operand `N`, the 7-bit field `H[10:4]` of the header (R56). -/
abbrev WidthField := BitVec 7

/-- A scalar port, `X` or `Y`: `XW = 64` bits (R11). -/
abbrev Scalar := BitVec 64

/-- The status output `ST`, 4 bits (R11, R27). -/
abbrev Status := BitVec 4

end Sys2Proof
end

