-- ==== Sys2Proof/Syntax.lean ====
section
/-! DEFINITION. The commands of the unit: one constructor per row of spec/opcode_table.json (30_encoding.md R57). -/

namespace Sys2Proof

/-- A command's operation as its header names it. The four codec conversions carry the header's `N` field
(R56, R58), with its 128 values, legal or not; every other command ignores that field (R59). The operands `A`, `B`, `X` are
ports, not part of the header (R55). -/
inductive Instr where
  /-- ZERO, default construction (R120). -/
  | zero
  /-- B2U.N, `bits_to_unsigned` (R84). -/
  | b2u (n : WidthField)
  /-- B2S.N, `bits_to_signed` (R85). -/
  | b2s (n : WidthField)
  /-- U2B.N, `unsigned_to_bits` (R86). -/
  | u2b (n : WidthField)
  /-- S2B.N, `signed_to_bits` (R87). -/
  | s2b (n : WidthField)
  /-- DEXP, `decimal_exponent` (R110). -/
  | dexp
  /-- ENC, `encode` (R122). -/
  | enc
  /-- DEC, `decode` (R124). -/
  | dec
  /-- NEG, `negate` (R141). -/
  | neg
  /-- ADD, `add` (R142). -/
  | add
  /-- SUB, `subtract` (R143). -/
  | sub
  /-- MUL, `multiply` (R144). -/
  | mul
  /-- RCPA, the source's `reciprocal`, an approximation (R145). -/
  | rcpa
  /-- DIVA, the source's `divide`, built on RCPA (R146). -/
  | diva
deriving DecidableEq, Repr

end Sys2Proof
end

