-- ==== Sys2Proof/Decode.lean ====
section
/-! DEFINITION. The decoder of the 11-bit header and, after it, the encoder, both written from 30_encoding.md R56 to R60. -/

namespace Sys2Proof

/-- Why a header names no command. -/
inductive DecodeError where
  /-- `OP` 14 and 15 are reserved (R60). -/
  | reservedOp (op : BitVec 4)
deriving DecidableEq, Repr

/-- `OP = H[3:0]` (R56). -/
def opField (h : Header) : BitVec 4 := h.extractLsb' 0 4

/-- `N = H[10:4]` (R56). -/
def nField (h : Header) : WidthField := h.extractLsb' 4 7

/-- The operation codes of R57. `N` never selects the operation; ten commands drop it (R59). -/
def decode (h : Header) : Except DecodeError Instr :=
  match (opField h).toNat with
  | 0 => .ok .zero
  | 1 => .ok (.b2u (nField h))
  | 2 => .ok (.b2s (nField h))
  | 3 => .ok (.u2b (nField h))
  | 4 => .ok (.s2b (nField h))
  | 5 => .ok .dexp
  | 6 => .ok .enc
  | 7 => .ok .dec
  | 8 => .ok .neg
  | 9 => .ok .add
  | 10 => .ok .sub
  | 11 => .ok .mul
  | 12 => .ok .rcpa
  | 13 => .ok .diva
  | _ => .error (.reservedOp (opField h))

/-- The header with the fields `N` and `OP` (R56). -/
def header (n : WidthField) (op : BitVec 4) : Header := n ++ op

/-- The header an assembler emits (R57, R59, R70): `N = 0` where the command has no width operand. -/
def encode : Instr → Header
  | .zero => header 0 0
  | .b2u n => header n 1
  | .b2s n => header n 2
  | .u2b n => header n 3
  | .s2b n => header n 4
  | .dexp => header 0 5
  | .enc => header 0 6
  | .dec => header 0 7
  | .neg => header 0 8
  | .add => header 0 9
  | .sub => header 0 10
  | .mul => header 0 11
  | .rcpa => header 0 12
  | .diva => header 0 13

/-- The header wires of a word of `nbits` bits: bit `i` of the word is `H[i]`. The port has 11 wires (R55), so a word's
bits from 11 up have none (notes/assumptions/3.md). -/
def headerOfWord (nbits w : Nat) : Header := BitVec.ofNat 11 (w % 2 ^ nbits)

/-- The instruction the decoder reads from a table row's word. -/
def decodeTableWord (nbits w : Nat) : Option Instr :=
  match decode (headerOfWord nbits w) with
  | .ok i => some i
  | .error _ => none

end Sys2Proof
end

