-- ==== Sys2Proof/Config.lean ====
section
/-! DEFINITION. What is fixed when an instance of the unit is elaborated, the parameters `(E, M, NF)` of
00_scope.md R7 to R10, and the one value the spec leaves free, the NaN that DEC may return (R126). -/

namespace Sys2Proof

/-- The native floating-point format `NF` (R10): one of two IEEE 754 binary interchange formats. -/
inductive NF where
  | binary32
  | binary64
deriving DecidableEq, Repr

/-- `NFW`, the width of the native format's encoding (R10). -/
abbrev NF.width : NF → Nat
  | .binary32 => 32
  | .binary64 => 64

/-- The parameters of one instance. Illegal parameters do not elaborate (R8, R186), so a configuration carries
the proofs of R8 and no illegal one can be built; `NF` has no third value. -/
structure Config where
  /-- `E`, the exponent width in bits (R7). -/
  E : Nat
  /-- `M`, the mantissa width in bits (R7). -/
  M : Nat
  /-- `NF`, the native float format (R10). -/
  nf : NF
  /-- The exponent is read by `bits_to_signed`, defined for more than one bit (R8). -/
  two_le_E : 2 ≤ E
  /-- A mantissa has at least one bit (R8). -/
  one_le_M : 1 ≤ M
  /-- "total representable width ceiling" (R8). -/
  width_le : 1 + E + M ≤ 128
deriving DecidableEq, Repr

/-- `W = 1 + E + M`, the width of a CF word (R9). -/
abbrev Config.W (c : Config) : Nat := 1 + c.E + c.M

/-- The legality test of R8 on raw parameters. -/
abbrev Config.Legal (E M : Nat) : Prop := 2 ≤ E ∧ 1 ≤ M ∧ 1 + E + M ≤ 128

/-- Elaboration (R186): an instance for legal parameters, none for illegal ones. -/
def Config.elaborate (E M : Nat) (nf : NF) : Option Config :=
  if h : Config.Legal E M then some ⟨E, M, nf, h.1, h.2.1, h.2.2⟩ else none

/-- The "common" instance, `E = 8, M = 23` (R7), with the default native format `binary64` (R10).
DESIGN CHOICE (notes/assumptions/1.md, unsafe): the instance that `State.reset` is an instance of. -/
def Config.common : Config := ⟨8, 23, .binary64, by decide, by decide, by decide⟩

/-- The free value of R126: the bits from which the NaN of the `k`-th accepted command is made, when its native
arithmetic computes infinity times zero. No body: nothing can be proved of its values (DESIGN CHOICE, safe: notes/assumptions/2.md). -/
opaque Config.freeNaN : Nat → BitVec 64

end Sys2Proof
end

