-- ==== Sys2Proof/Machine/Constants.lean ====
section
/-! DEFINITION. The derived constants of an instance (00_scope.md R9). -/

namespace Sys2Proof

/-- The largest `d` up to a bound with `10 ^ d ≤ 2 ^ M`. -/
def largestDecade (M : Nat) : Nat → Nat
  | 0 => 0
  | d + 1 => if 10 ^ (d + 1) ≤ 2 ^ M then d + 1 else largestDecade M d

/-- `D(M)`, the largest `d` with `10 ^ d ≤ 2 ^ M` (R9). It is at most `M`. -/
def decadeOf (M : Nat) : Nat := largestDecade M M

/-- `D(M)` of an instance (R9). -/
def Config.D (c : Config) : Nat := decadeOf c.M

/-- `MM(M) = 10 ^ D(M)`, the mantissa multiplier as an integer (R9). -/
def Config.MM (c : Config) : Nat := 10 ^ c.D

/-- `MMAX = 2 ^ M - 1` (R9). -/
def Config.MMAX (c : Config) : Nat := 2 ^ c.M - 1

/-- `EMIN = -2 ^ (E - 1)` (R9). -/
def Config.EMIN (c : Config) : Int := -(2 ^ (c.E - 1) : Nat)

/-- `EMAX = 2 ^ (E - 1) - 1` (R9). -/
def Config.EMAX (c : Config) : Int := (2 ^ (c.E - 1) : Nat) - 1

end Sys2Proof
end

