-- ==== Sys2Proof/Machine/State.lean ====
section
/-! DEFINITION. The machine's state. The unit has no architectural state (10_state.md R20); what there is, is the
instance's parameters (R28), the levels on its input ports at the clock edges to come (R24, R200), the commands accepted
and not yet answered with their responses (R31), the response handshake (R200) and what the host has taken. -/

namespace Sys2Proof.Machine

/-- One command as it stands on the command ports (R24, R55). -/
structure Command (c : Config) where
  /-- The header. -/
  h : Header
  /-- First CF operand. -/
  a : BitVec c.W
  /-- Second CF operand. -/
  b : BitVec c.W
  /-- Scalar operand. -/
  x : Scalar
deriving DecidableEq, Repr

/-- One response as it stands on the response ports (R24). -/
structure Response (c : Config) where
  /-- CF result. -/
  r : BitVec c.W
  /-- Scalar result. -/
  y : Scalar
  /-- Status: bit 0 `OOR_X`, bit 1 `OOR_M`, bit 2 `OOR_I`, bit 3 `INV` (R27). -/
  st : Status
deriving DecidableEq, Repr

/-- The levels at one rising edge of `clk` (R200): what the host drives, and the two things the spec leaves to the unit. -/
structure Edge (c : Config) where
  /-- `rst`, active high, sampled at the edge (R195). -/
  rst : Bool
  /-- `cmd_valid` (R200). -/
  cmdValid : Bool
  /-- `rsp_ready` (R200). -/
  rspReady : Bool
  /-- `H`, `A`, `B`, `X` (R24). -/
  cmd : Command c
  /-- FREE, the model's own (notes/assumptions/4.md): whether the unit is willing to take a command at this edge. -/
  unitReady : Bool
  /-- FREE, the model's own (notes/assumptions/4.md): whether by this edge the latency `LAT` of the oldest command in
  flight has passed (R12, R210). -/
  unitDone : Bool
deriving DecidableEq, Repr

/-- The whole machine, as plain data. -/
structure State where
  /-- The instance's parameters: constants, no step changes them (R28, R37). -/
  cfg : Config
  /-- The edges to come, first the next one: what the host will drive (R203). The model's own field
  (notes/assumptions/5.md). After the last of them nothing is driven. -/
  host : List (Edge cfg)
  /-- The commands accepted and not yet answered, oldest first, each as the response it will get (R31, R46;
  DESIGN CHOICE, notes/assumptions/8.md). -/
  inFlight : List (Response cfg)
  /-- Whether the last edge left `rsp_valid` up over a response in flight that was not taken: then that response, the oldest, stands
  on `R`, `Y`, `ST` (R200). -/
  rspValid : Bool
  /-- The responses delivered to the host, oldest first: the host's storage, the model's own field (notes/assumptions/5.md). -/
  received : List (Response cfg)
  /-- How many commands have been accepted: the index of the free value `Config.freeNaN` for the next one. The model's own
  field (notes/assumptions/2.md). -/
  draw : Nat
deriving DecidableEq, Repr

/-- Why the machine stops with a fault. It has no constructor: no condition of the unit stops it or transfers control
(60_exceptions.md R170, R179), and no command sequence causes a fault (70_reset_and_hazards.md R203). Nobody raises one; safe. -/
inductive Fault where
deriving DecidableEq, Repr

/-- Why a step has no meaning. -/
inductive Refusal where
  /-- An instruction with no meaning yet. Raised by no arm of `exec`: every command has its meaning. Safe. -/
  | notModelled (mnemonic : String)
deriving DecidableEq, Repr

/-- All ports zero: the header is ZERO's. -/
def Command.zeros (c : Config) : Command c := ⟨0, 0, 0, 0⟩

/-- An edge at which the host drives nothing: no reset, no command, no response taken (notes/assumptions/5.md). Every edge past the end of
`State.host` is this one. That the unit is neither ready nor done there, so that a response in flight does not rise, is the
model's choice: `cmd_ready` and the latency are left open (R200, R210; DESIGN CHOICE, notes/assumptions/15.md). -/
def Edge.idle (c : Config) : Edge c := ⟨false, false, false, Command.zeros c, false, false⟩

/-- An instance right after reset (R37, R196): no command in flight, no response pending, `rsp_valid = 0`. -/
def State.resetOf (c : Config) : State :=
  { cfg := c, host := [], inFlight := [], rspValid := false, received := [], draw := 0 }

/-- The machine right after reset. The instance is the common one (notes/assumptions/1.md); reset gives nothing else a
value, since there is no architectural state (R37, R196). -/
def State.reset : State := State.resetOf Config.common

end Sys2Proof.Machine
end

