-- ==== Sys2Proof/Machine/Flags.lean ====
section
/-! DEFINITION. The four status bits (10_state.md R27, 60_exceptions.md R170 to R175). -/

namespace Sys2Proof.Machine

/-- Bit 0: an exponent did not fit `E` bits and was wrapped (R27). -/
def Response.oorX {c : Config} (p : Response c) : Bool := p.st.getLsbD 0

/-- Bit 1: a mantissa did not fit `M` bits and was wrapped (R27). -/
def Response.oorM {c : Config} (p : Response c) : Bool := p.st.getLsbD 1

/-- Bit 2: the integer of U2B or S2B did not fit `N` bits and was wrapped (R27). -/
def Response.oorI {c : Config} (p : Response c) : Bool := p.st.getLsbD 2

/-- Bit 3: the command was invalid (R27). -/
def Response.inv {c : Config} (p : Response c) : Bool := p.st.getLsbD 3

/-- The status of a valid command from its three out-of-range bits (R170). -/
def status (oorX oorM oorI : Bool) : Status :=
  ((BitVec.ofBool false ++ BitVec.ofBool oorI) ++ BitVec.ofBool oorM) ++ BitVec.ofBool oorX

/-- The status of an invalid command: `INV` and no other bit (R174). -/
def invStatus : Status := 0b1000#4

/-- `OOR_X` (R171): the exponent is outside `EMIN .. EMAX`. -/
def exponentOutOfRange (c : Config) (e : Int) : Bool := e < c.EMIN || c.EMAX < e

/-- `OOR_M` (R172): the mantissa is above `MMAX`. -/
def mantissaOutOfRange (c : Config) (m : Nat) : Bool := c.MMAX < m

end Sys2Proof.Machine
end

