-- ==== Sys2Proof/Machine/BitSeq.lean ====
section
/-! DEFINITION. Bit sequences and their four conversions as mathematical functions (00_scope.md R14, 40_bitcodec.md
R80 to R83). The commands B2U, B2S, U2B, S2B call them at a width of 64 or less, the CustomFloat word at `E` and `M`. -/

namespace Sys2Proof.Machine

/-- A bit sequence (R14): booleans, most significant first. -/
abbrev BitSeq := List Bool

/-- The sequence of the bits of a vector, most significant first; the inverse of `vec` (R14). -/
def seqOf {n : Nat} (v : BitVec n) : BitSeq := (List.range n).map fun i => v.getLsbD (n - 1 - i)

/-- `B2U` (R80): element `i` of a sequence of length `N` has weight `2 ^ (N - 1 - i)`. -/
def bitsToUnsigned : BitSeq → Nat
  | [] => 0
  | s₀ :: rest => s₀.toNat * 2 ^ rest.length + bitsToUnsigned rest

/-- `vec` (R14): the vector whose bit `N - 1 - i` is element `i`. -/
def vec (n : Nat) (s : BitSeq) : BitVec n := BitVec.ofNat n (bitsToUnsigned s)

/-- `B2S` (R81): two's complement, element 0 the sign. The empty sequence is outside its domain. -/
def bitsToSigned : BitSeq → Int
  | [] => 0
  | s₀ :: rest => if s₀ then -(2 ^ rest.length : Nat) + bitsToUnsigned rest else bitsToUnsigned rest

/-- The sequence of the low `n` bits of `v`, most significant first. -/
def lowBits (v : Nat) : Nat → BitSeq
  | 0 => []
  | n + 1 => v.testBit n :: lowBits v n

/-- `U2B` (R82): the low `n` bits, and whether `v` did not fit them. -/
def unsignedToBits (v n : Nat) : BitSeq × Bool := (lowBits v n, decide (v > 2 ^ n - 1))

/-- `S2B` (R83): the low `n` bits of the two's-complement form, for every integer, and whether `v` was out of the
signed range. -/
def signedToBits (v : Int) (n : Nat) : BitSeq × Bool :=
  (lowBits (v % (2 ^ n : Nat)).toNat n, decide (v < -(2 ^ (n - 1) : Nat)) || decide (v > (2 ^ (n - 1) : Nat) - 1))

end Sys2Proof.Machine
end

