-- ==== Sys2Proof/Machine/NativeFloat.lean ====
section
/-! DEFINITION. The native-float primitives of 41_decimalscale.md R100 with the meanings of R101: IEEE 754 binary
arithmetic, round to nearest, ties to even, computed exactly on integers and rounded once (PRESUMED, notes/assumptions/11.md). -/

namespace Sys2Proof

namespace Machine

/-- A value of a native format. A finite value is `± m * 2 ^ e` with `e` the exponent of its last place, in the one form of
`fCanonical`. A NaN is told by its sign and its fraction field. -/
inductive Native where
  | nan (neg : Bool) (frac : Nat)
  | inf (neg : Bool)
  | fin (neg : Bool) (m : Nat) (e : Int)
deriving DecidableEq, Repr

/-- Bits of the significand, the leading one included. -/
def precision : NF → Nat
  | .binary32 => 24
  | .binary64 => 53

/-- Bits of the encoding's exponent field. -/
def expFieldWidth : NF → Nat
  | .binary32 => 8
  | .binary64 => 11

/-- Exponent of the last place of the subnormals and of the smallest normal values. -/
def minExp : NF → Int
  | .binary32 => -149
  | .binary64 => -1074

/-- Exponent of the last place of the largest finite values. -/
def maxExp : NF → Int
  | .binary32 => 104
  | .binary64 => 971

/-- The native arithmetic that one command computes with (R100): the format, and free bits for the NaN that an invalid
operation makes. Which NaN that is, IEEE 754 and the spec leave open (42_customfloat_codec.md R126; notes/assumptions/2.md). -/
structure Arith where
  /-- `NF`. -/
  nf : NF
  /-- FREE: what the NaN is made from. -/
  free : BitVec 64
deriving DecidableEq, Repr

end Machine

/-- The native arithmetic of the `draw`-th accepted command of an instance. -/
def Config.arith (c : Config) (draw : Nat) : Machine.Arith := ⟨c.nf, Config.freeNaN draw⟩

namespace Machine

/-- The form a value of the format has: a NaN's fraction fits and is not zero; a finite value's significand fits, with its leading
one unless the exponent is the least. -/
def fCanonical (f : NF) : Native → Prop
  | .nan _ frac => 0 < frac ∧ frac < 2 ^ (precision f - 1)
  | .inf _ => True
  | .fin _ m e => m < 2 ^ precision f ∧ minExp f ≤ e ∧ e ≤ maxExp f ∧ (2 ^ (precision f - 1) ≤ m ∨ e = minExp f)

/-- Zero with a sign. -/
def fZero (f : NF) (neg : Bool) : Native := .fin neg 0 (minExp f)

/-- `F_ONE`. -/
def fOne (f : NF) : Native := .fin false (2 ^ (precision f - 1)) (1 - precision f)

/-- `F_TEN`: `10 = 1.25 * 2 ^ 3`. -/
def fTen (f : NF) : Native := .fin false (5 * 2 ^ (precision f - 3)) (4 - precision f)

/-- `F_of_bits`: the value of an encoding, from the low `NFW` bits. -/
def fOfBits (f : NF) (b : BitVec f.width) : Native :=
  let p := precision f
  let neg := b.getLsbD (f.width - 1)
  let field := b.toNat / 2 ^ (p - 1) % 2 ^ expFieldWidth f
  let frac := b.toNat % 2 ^ (p - 1)
  if field = 2 ^ expFieldWidth f - 1 then (if frac = 0 then .inf neg else .nan neg frac)
  else if field = 0 then .fin neg frac (minExp f)
  else .fin neg (2 ^ (p - 1) + frac) (minExp f + (field - 1 : Nat))

/-- The NaN that an operation makes, from the free bits: their top bit is its sign and their low bits its fraction, but where that would
be zero, an infinity's, the quiet bit is set. Every NaN of the format is made from some bits (R126). -/
def madeNaN (a : Arith) : Native :=
  let frac := a.free.toNat % 2 ^ (precision a.nf - 1)
  .nan a.free.msb (if frac = 0 then 2 ^ (precision a.nf - 2) else frac)

/-- An encoding from its three fields. -/
def fEncode (f : NF) (neg : Bool) (field frac : Nat) : BitVec f.width :=
  BitVec.ofNat f.width (neg.toNat * 2 ^ (f.width - 1) + field * 2 ^ (precision f - 1) + frac)

/-- `F_bits`: the encoding of a value. -/
def fBits (f : NF) : Native → BitVec f.width
  | .nan neg frac => fEncode f neg (2 ^ expFieldWidth f - 1) frac
  | .inf neg => fEncode f neg (2 ^ expFieldWidth f - 1) 0
  | .fin neg m e =>
    if m < 2 ^ (precision f - 1) then fEncode f neg 0 m
    else fEncode f neg ((e - minExp f).toNat + 1) (m - 2 ^ (precision f - 1))

/-- `F_isnan`. -/
def fIsNaN : Native → Bool
  | .nan _ _ => true
  | .inf _ => false
  | .fin _ _ _ => false

/-- `F_isinf`. -/
def fIsInf : Native → Bool
  | .nan _ _ => false
  | .inf _ => true
  | .fin _ _ _ => false

/-- `F_isfinite`. -/
def fIsFinite (v : Native) : Bool := !fIsNaN v && !fIsInf v

/-- `F_iszero`: of either sign. -/
def fIsZero : Native → Bool
  | .nan _ _ => false
  | .inf _ => false
  | .fin _ m _ => m == 0

/-- `F_abs`: clears the sign bit. -/
def fAbs : Native → Native
  | .nan _ frac => .nan false frac
  | .inf _ => .inf false
  | .fin _ m e => .fin false m e

/-- `F_neg`: flips the sign bit, also of zeros and NaNs. -/
def fNeg : Native → Native
  | .nan s frac => .nan (!s) frac
  | .inf s => .inf (!s)
  | .fin s m e => .fin (!s) m e

/-- `± m * 2 ^ (e - base)` for `base ≤ e`, an integer. -/
def scaled (s : Bool) (m : Nat) (e base : Int) : Int :=
  let k : Int := m * 2 ^ (e - base).toNat
  if s then -k else k

/-- `F_lt`, the quiet comparison `a < b`. -/
def fLt : Native → Native → Bool
  | .nan _ _, _ => false
  | _, .nan _ _ => false
  | .inf s, .inf t => s && !t
  | .inf s, .fin _ _ _ => s
  | .fin _ _ _, .inf t => !t
  | .fin s m e, .fin t n g => decide (scaled s m e (min e g) < scaled t n g (min e g))

/-- `F_ge`, the quiet comparison `a ≥ b`. -/
def fGe (a b : Native) : Bool := !fIsNaN a && !fIsNaN b && !fLt a b

/-- The largest integer `k` with `2 ^ k ≤ num / den`, for positive `num` and `den`. -/
def floorLog2 (num den : Nat) : Int :=
  let l : Int := (num.log2 : Int) - den.log2
  if den * 2 ^ l.toNat ≤ num * 2 ^ (-l).toNat then l else l - 1

/-- The nearest integer to `num / den`, the even one of two. -/
def nearestEven (num den : Nat) : Nat :=
  let q := num / den
  let r := num % den
  if 2 * r < den then q else if den < 2 * r then q + 1 else q + q % 2

/-- The value of the format nearest to `± num / den`, ties to even, an infinity beyond the format's range (R101). -/
def fRound (f : NF) (s : Bool) (num den : Nat) : Native :=
  if num = 0 then fZero f s
  else
    let e : Int := max (floorLog2 num den - (precision f - 1 : Nat)) (minExp f)
    let q := nearestEven (num * 2 ^ (-e).toNat) (den * 2 ^ e.toNat)
    if q = 2 ^ precision f then
      (if e + 1 ≤ maxExp f then .fin s (2 ^ (precision f - 1)) (e + 1) else .inf s)
    else if e ≤ maxExp f then .fin s q e else .inf s

/-- `F_mul`. A NaN operand gives a NaN, which one is as open as for an invalid operation. -/
def fMul (a : Arith) : Native → Native → Native
  | .nan _ _, _ => madeNaN a
  | _, .nan _ _ => madeNaN a
  | .inf s, .inf t => .inf (s ^^ t)
  | .inf s, .fin t n _ => if n = 0 then madeNaN a else .inf (s ^^ t)
  | .fin s m _, .inf t => if m = 0 then madeNaN a else .inf (s ^^ t)
  | .fin s m e, .fin t n g => fRound a.nf (s ^^ t) (m * n * 2 ^ (e + g).toNat) (2 ^ (-(e + g)).toNat)

/-- `F_div`; NaNs as in `fMul`. -/
def fDiv (a : Arith) : Native → Native → Native
  | .nan _ _, _ => madeNaN a
  | _, .nan _ _ => madeNaN a
  | .inf _, .inf _ => madeNaN a
  | .inf s, .fin t _ _ => .inf (s ^^ t)
  | .fin s _ _, .inf t => fZero a.nf (s ^^ t)
  | .fin s m e, .fin t n g =>
    if n = 0 then (if m = 0 then madeNaN a else .inf (s ^^ t))
    else fRound a.nf (s ^^ t) (m * 2 ^ (e - g).toNat) (n * 2 ^ (g - e).toNat)

/-- `F_from_uint`: the value nearest to an integer. -/
def fFromUnsigned (f : NF) (i : Nat) : Native := fRound f false i 1

/-- `F_trunc`: the floor of a finite value that is not negative. -/
def fTrunc : Native → Nat
  | .nan _ _ => 0
  | .inf _ => 0
  | .fin _ m e => m * 2 ^ e.toNat / 2 ^ (-e).toNat

end Machine

end Sys2Proof
end

