-- ==== Sys2Proof/Machine/Operands.lean ====
section
/-! DEFINITION. The ports at the coming edge, and every form in which a command reads its operands
(10_state.md R36, 30_encoding.md R58, R61, R62). -/

namespace Sys2Proof.Machine

/-- The levels at the coming edge: the next of the host's, and after its last an idle one. -/
def State.edge (s : State) : Edge s.cfg := s.host.headD (Edge.idle s.cfg)

/-- The command on the ports at the coming edge (R55). -/
def State.command (s : State) : Command s.cfg := s.edge.cmd

/-- The header port `H`. -/
def State.portH (s : State) : Header := s.command.h

/-- The operand port `A`. -/
def State.portA (s : State) : BitVec s.cfg.W := s.command.a

/-- The operand port `B`. -/
def State.portB (s : State) : BitVec s.cfg.W := s.command.b

/-- The scalar port `X`. -/
def State.portX (s : State) : Scalar := s.command.x

/-- Whether `N` is legal for B2U and U2B (R58). -/
def legalUnsigned (n : WidthField) : Bool := 1 ≤ n.toNat && n.toNat ≤ 64

/-- Whether `N` is legal for B2S and S2B (R58). -/
def legalSigned (n : WidthField) : Bool := 2 ≤ n.toNat && n.toNat ≤ 64

/-- The bit sequence `seq_N(X[N-1:0])`; the bits of `X` from `N` up are ignored (R61). -/
def sequenceOperand (n : Nat) (x : Scalar) : BitSeq := seqOf (x.setWidth n)

/-- `uint(X)` (R61). -/
def unsignedOperand (x : Scalar) : Nat := x.toNat

/-- `sint(X)` (R61). -/
def signedOperand (x : Scalar) : Int := x.toInt

/-- The native float whose encoding is `X[NFW-1:0]` (R61). -/
def floatOperand (c : Config) (x : Scalar) : Native := fOfBits c.nf (x.setWidth c.nf.width)

/-- `c.s`, the sign bit of a CF word (R22): bit `W - 1`. -/
def signField {c : Config} (w : BitVec c.W) : Bool := w.getLsbD (c.W - 1)

/-- `c.x`, the exponent field of a CF word (R22): bits `W - 2` down to `M`. -/
def expField {c : Config} (w : BitVec c.W) : BitVec c.E := w.extractLsb' c.M c.E

/-- `c.m`, the mantissa field of a CF word (R22): bits `M - 1` down to 0. -/
def mantField {c : Config} (w : BitVec c.W) : BitVec c.M := w.extractLsb' 0 c.M

/-- A CF word taken apart (R62). -/
structure Fields where
  /-- The sign, true for negative. -/
  s : Bool
  /-- The signed decimal exponent. -/
  e : Int
  /-- The unsigned mantissa. -/
  m : Nat
deriving DecidableEq, Repr

/-- `fields(c)` (R62). -/
def fields {c : Config} (w : BitVec c.W) : Fields :=
  ⟨signField w, bitsToSigned (seqOf (expField w)), bitsToUnsigned (seqOf (mantField w))⟩

end Sys2Proof.Machine
end

