-- ==== Sys2Proof/Machine/Ops.lean ====
section
/-! DEFINITION. The named operations that every meaning is built from: putting a CF word together (10_state.md R22, 30_encoding.md R63),
answering a command (70_reset_and_hazards.md R201), the one exceptional path `raise Invalid` (60_exceptions.md R174), and
what a clock edge does to the responses (R196, R200). The unit has no memory and takes no trap (R40, R179). -/

namespace Sys2Proof.Machine

/-- `cf(s, x, m)` (R22). -/
def cfWord {c : Config} (s : Bool) (x : BitVec c.E) (m : BitVec c.M) : BitVec c.W := BitVec.ofBool s ++ x ++ m

/-- `CF_ZERO` (R23). -/
def cfZero (c : Config) : BitVec c.W := 0

/-- `pack(s, e, m)` (R63) as the response of a command whose result it is: each field wrapped on its own, each wrap
flagged, and `Y` zero. -/
def packed (c : Config) (s : Bool) (e : Int) (m : Nat) : Response c :=
  ⟨cfWord s (vec c.E (signedToBits e c.E).1) (vec c.M (unsignedToBits m c.M).1), 0,
    status (exponentOutOfRange c e) (mantissaOutOfRange c m) false⟩

/-- `raise Invalid` (R174): all results zero, `ST = 0b1000`. -/
def Response.invalid (c : Config) : Response c := ⟨0, 0, invStatus⟩

/-- Answering the accepted command: its response joins those in flight, as the youngest (R201). -/
def State.respond (s : State) (p : Response s.cfg) : State :=
  { s with inFlight := s.inFlight ++ [p], draw := s.draw + 1 }

/-- The one exceptional entry of the unit, for a command that is invalid by its opcode (R60, R174 (a)): a response, and nothing
else changes (R179). There is no return from it (R180). -/
def State.raiseInvalid (s : State) : State := s.respond (Response.invalid s.cfg)

/-- `cmd_ready` at the coming edge (R196, R200): the unit's choice, but 0 while `rst = 1`. -/
def State.cmdReady (s : State) : Bool := s.edge.unitReady && !s.edge.rst

/-- Whether the command on the ports is accepted at the coming edge (R200). -/
def State.accepts (s : State) : Bool := s.edge.cmdValid && s.cmdReady && !s.edge.rst

/-- Whether the oldest command in flight has its response up at the coming edge: it rises when the latency has passed, and once up it
stays up until the response is taken or `rst` drops it. That it does not fall before is the model's choice: R200 says only
that `R`, `Y`, `ST` are valid and stable while `rsp_valid = 1` (DESIGN CHOICE, notes/assumptions/14.md). -/
def State.oldestDone (s : State) : Bool := s.rspValid || (s.edge.unitDone && !s.inFlight.isEmpty)

/-- Whether the unit answers combinationally at the coming edge (`LAT = 0`, R200): nothing is in flight, and the response to the
command on offer is up because `cmd_valid` is, accepted or not. Not where the host would take the response of a command that
is not accepted, which tying `cmd_ready` to `rsp_ready` rules out, and not during `rst` (notes/assumptions/4.md). -/
def State.showsOffered (s : State) : Bool :=
  s.inFlight.isEmpty && s.edge.cmdValid && s.edge.unitDone && !s.edge.rst && (s.edge.unitReady || !s.edge.rspReady)

/-- `rsp_valid` at the coming edge (R200): up for the oldest command in flight, or with none in flight for the one on offer. -/
def State.presents (s : State) : Bool := s.oldestDone || s.showsOffered

/-- Whether the oldest response in flight, the command accepted at the edge counted in, is delivered at the coming edge (R200). A
response that is up for a command on offer is delivered only with that command accepted. -/
def State.delivers (s : State) : Bool := s.oldestDone && s.edge.rspReady

/-- What an edge does after a command has been accepted at it, or none: the oldest response is delivered if the handshake
says so (R200), an edge with `rst = 1` drops every command that is still unanswered and lowers `rsp_valid` (R196, R197; DEDUCED, notes/assumptions/7.md),
and the host goes on to its next edge. -/
def State.finishEdge (s : State) : State :=
  { s with
    host := s.host.tail
    inFlight := if s.edge.rst then [] else if s.delivers then s.inFlight.drop 1 else s.inFlight
    rspValid := s.oldestDone && !s.edge.rspReady && !s.edge.rst
    received := if s.delivers then s.received ++ s.inFlight.take 1 else s.received }

end Sys2Proof.Machine
end

