-- ==== Sys2Proof/Machine/Arithmetic.lean ====
section
/-! DEFINITION. The arithmetic family: NEG, ADD, SUB, MUL, RCPA, DIVA (43_arithmetic.md R141 to R147). All intermediate
values are exact integers (R148); nothing is renormalized (R150). -/

namespace Sys2Proof.Machine

/-- A CF word with its sign bit flipped (R141). -/
def flipSign {c : Config} (w : BitVec c.W) : BitVec c.W := cfWord (!signField w) (expField w) (mantField w)

/-- `m div 10 ^ k` for a mantissa `m` of the instance (R142 step 2). Where `k > D(M)` the quotient is 0 and the power is not computed, as
R211 (c) allows (DEDUCED, notes/assumptions/10.md). -/
def aligned (c : Config) (m k : Nat) : Nat := if c.D < k then 0 else m / 10 ^ k

/-- A magnitude with its sign, as an integer (R142 step 3). -/
def signed (s : Bool) (m : Nat) : Int := if s then -(m : Int) else m

/-- NEG's response (R141). -/
def negResponse (c : Config) (a : BitVec c.W) : Response c := ⟨flipSign a, 0, status false false false⟩

/-- ADD's response (R142). -/
def addResponse (c : Config) (a b : BitVec c.W) : Response c :=
  let p := fields a
  let q := fields b
  let ma := if p.e < q.e then aligned c p.m (q.e - p.e).toNat else p.m
  let mb := if q.e < p.e then aligned c q.m (p.e - q.e).toNat else q.m
  let sum := signed p.s ma + signed q.s mb
  packed c (sum < 0) (max p.e q.e) sum.natAbs

/-- SUB's response (R143): ADD with the second operand negated. -/
def subResponse (c : Config) (a b : BitVec c.W) : Response c := addResponse c a (flipSign b)

/-- MUL's response (R144). -/
def mulResponse (c : Config) (a b : BitVec c.W) : Response c :=
  let p := fields a
  let q := fields b
  packed c (p.s ^^ q.s) (p.e + q.e) (p.m * q.m / c.MM)

/-- RCPA's response (R145): the exponent negated, mantissa and sign kept. -/
def rcpaResponse (c : Config) (a : BitVec c.W) : Response c :=
  let p := fields a
  packed c p.s (-p.e) p.m

/-- DIVA's response (R146): MUL by the packed result of RCPA, the statuses ORed (R147). -/
def divaResponse (c : Config) (a b : BitVec c.W) : Response c :=
  let first := rcpaResponse c b
  let second := mulResponse c a first.r
  ⟨second.r, second.y, first.st ||| second.st⟩

/-- NEG (R141). -/
def execNeg (s : State) : Host.Outcome State Fault Refusal := .next (s.respond (negResponse s.cfg s.portA))

/-- ADD (R142). -/
def execAdd (s : State) : Host.Outcome State Fault Refusal := .next (s.respond (addResponse s.cfg s.portA s.portB))

/-- SUB (R143). -/
def execSub (s : State) : Host.Outcome State Fault Refusal := .next (s.respond (subResponse s.cfg s.portA s.portB))

/-- MUL (R144). -/
def execMul (s : State) : Host.Outcome State Fault Refusal := .next (s.respond (mulResponse s.cfg s.portA s.portB))

/-- RCPA (R145). -/
def execRcpa (s : State) : Host.Outcome State Fault Refusal := .next (s.respond (rcpaResponse s.cfg s.portA))

/-- DIVA (R146). -/
def execDiva (s : State) : Host.Outcome State Fault Refusal := .next (s.respond (divaResponse s.cfg s.portA s.portB))

end Sys2Proof.Machine
end

