-- ==== Sys2Proof/Machine/BitCodec.lean ====
section
/-! DEFINITION. The BitCodec family: B2U, B2S, U2B, S2B (40_bitcodec.md R84 to R87). -/

namespace Sys2Proof.Machine

/-- B2U's response (R84). -/
def b2uResponse (c : Config) (n : WidthField) (x : Scalar) : Response c :=
  if legalUnsigned n then
    ⟨0, BitVec.ofNat 64 (bitsToUnsigned (sequenceOperand n.toNat x)), status false false false⟩
  else Response.invalid c

/-- B2S's response (R85). -/
def b2sResponse (c : Config) (n : WidthField) (x : Scalar) : Response c :=
  if legalSigned n then
    ⟨0, BitVec.ofInt 64 (bitsToSigned (sequenceOperand n.toNat x)), status false false false⟩
  else Response.invalid c

/-- U2B's response (R86). -/
def u2bResponse (c : Config) (n : WidthField) (x : Scalar) : Response c :=
  if legalUnsigned n then
    let q := unsignedToBits (unsignedOperand x) n.toNat
    ⟨0, (vec n.toNat q.1).setWidth 64, status false false q.2⟩
  else Response.invalid c

/-- S2B's response (R87). -/
def s2bResponse (c : Config) (n : WidthField) (x : Scalar) : Response c :=
  if legalSigned n then
    let q := signedToBits (signedOperand x) n.toNat
    ⟨0, (vec n.toNat q.1).setWidth 64, status false false q.2⟩
  else Response.invalid c

/-- B2U (R84). -/
def execB2u (n : WidthField) (s : State) : Host.Outcome State Fault Refusal :=
  .next (s.respond (b2uResponse s.cfg n s.portX))

/-- B2S (R85). -/
def execB2s (n : WidthField) (s : State) : Host.Outcome State Fault Refusal :=
  .next (s.respond (b2sResponse s.cfg n s.portX))

/-- U2B (R86). -/
def execU2b (n : WidthField) (s : State) : Host.Outcome State Fault Refusal :=
  .next (s.respond (u2bResponse s.cfg n s.portX))

/-- S2B (R87). -/
def execS2b (n : WidthField) (s : State) : Host.Outcome State Fault Refusal :=
  .next (s.respond (s2bResponse s.cfg n s.portX))

end Sys2Proof.Machine
end

