-- ==== Sys2Proof/Machine/DecimalScale.lean ====
section
/-! DEFINITION. The DecimalScale family (41_decimalscale.md): decimal exponent, power of ten, mantissa multiplier, mantissa
extraction, and the command DEXP. -/

namespace Sys2Proof.Machine

/-- The first loop of `DEXPF` (R103), with fuel: divide by ten while the value is at least ten. -/
def scaleDown (a : Arith) : Nat → Native → Int → Native × Int
  | 0, m, e => (m, e)
  | fuel + 1, m, e => if fGe m (fTen a.nf) then scaleDown a fuel (fDiv a m (fTen a.nf)) (e + 1) else (m, e)

/-- The second loop of `DEXPF` (R103), with fuel: multiply by ten while the value is below one. -/
def scaleUp (a : Arith) : Nat → Native → Int → Native × Int
  | 0, m, e => (m, e)
  | fuel + 1, m, e => if fLt m (fOne a.nf) then scaleUp a fuel (fMul a m (fTen a.nf)) (e - 1) else (m, e)

/-- The fuel of both loops. R104 and R211 (a) bound their iterations by 308 and 324 (DEDUCED, notes/assumptions/6.md). -/
def loopFuel : Nat := 400

/-- The value and the count with which the two loops of `DEXPF` end (R103). -/
def decimalScale (a : Arith) (mag : Native) : Native × Int :=
  let down := scaleDown a loopFuel mag 0
  scaleUp a loopFuel down.1 down.2

/-- `DEXPF` (R103), for a value that is finite and not negative. -/
def decimalExponent (a : Arith) (mag : Native) : Int := if fIsZero mag then 0 else (decimalScale a mag).2

/-- `k` multiplications by ten. -/
def timesTen (a : Arith) : Nat → Native → Native
  | 0, p => p
  | k + 1, p => timesTen a k (fMul a p (fTen a.nf))

/-- The number of multiplications after which the running product is infinite (R106 (b), R211 (b);
DEDUCED, notes/assumptions/10.md). -/
def tenCap : NF → Nat
  | .binary32 => 39
  | .binary64 => 309

/-- `P10F` (R105), its iterations capped as R211 (b) allows. -/
def powerOfTen (a : Arith) (k : Int) : Native :=
  let p := timesTen a (min k.natAbs (tenCap a.nf)) (fOne a.nf)
  if k < 0 then fDiv a (fOne a.nf) p else p

/-- `MMF = P10F(D(M))` (R107). -/
def multiplierFloat (a : Arith) (c : Config) : Native := powerOfTen a c.D

/-- `MANU` (R108): none where the scaled value is not finite. -/
def mantissaUnsigned (a : Arith) (c : Config) (mag : Native) (e : Int) : Option Nat :=
  let t := fMul a (fDiv a mag (powerOfTen a e)) (multiplierFloat a c)
  if fIsFinite t then some (fTrunc t) else none

/-- DEXP's response (R110). None of its operations is invalid, so the draw shows nowhere in it. -/
def dexpResponse (c : Config) (draw : Nat) (x : Scalar) : Response c :=
  let v := floatOperand c x
  if fIsNaN v || fIsInf v then Response.invalid c
  else ⟨0, BitVec.ofInt 64 (decimalExponent (c.arith draw) (fAbs v)), status false false false⟩

/-- DEXP (R110). -/
def execDexp (s : State) : Host.Outcome State Fault Refusal := .next (s.respond (dexpResponse s.cfg s.draw s.portX))

end Sys2Proof.Machine
end

