-- ==== Sys2Proof/Machine/CustomFloat.lean ====
section
/-! DEFINITION. The CustomFloat codec family: ZERO, ENC, DEC (42_customfloat_codec.md R120, R122, R124, R126). -/

namespace Sys2Proof.Machine

/-- ZERO's response (R120). -/
def zeroResponse (c : Config) : Response c := ⟨cfZero c, 0, status false false false⟩

/-- ENC's response (R122). None of its operations is invalid, so the draw shows nowhere in it. -/
def encResponse (c : Config) (draw : Nat) (x : Scalar) : Response c :=
  let v := floatOperand c x
  if fIsNaN v || fIsInf v then Response.invalid c
  else
    let s := fLt v (fZero c.nf false)
    let mag := fAbs v
    if fIsZero mag then ⟨cfZero c, 0, status false false false⟩
    else
      let e := decimalExponent (c.arith draw) mag
      match mantissaUnsigned (c.arith draw) c mag e with
      | none => Response.invalid c
      | some m => packed c s e m

/-- The native value DEC computes (R124). Where it is a NaN, which one is the free value drawn for this command (R126). -/
def decodedValue (c : Config) (draw : Nat) (a : BitVec c.W) : Native :=
  let n := c.arith draw
  let q := fields a
  let mf := fDiv n (fFromUnsigned c.nf q.m) (multiplierFloat n c)
  let mag := fMul n (powerOfTen n q.e) mf
  if q.s then fNeg mag else mag

/-- DEC's response (R124, R126). -/
def decResponse (c : Config) (draw : Nat) (a : BitVec c.W) : Response c :=
  ⟨0, (fBits c.nf (decodedValue c draw a)).setWidth 64, status false false false⟩

/-- ZERO (R120). -/
def execZero (s : State) : Host.Outcome State Fault Refusal := .next (s.respond (zeroResponse s.cfg))

/-- ENC (R122). -/
def execEnc (s : State) : Host.Outcome State Fault Refusal := .next (s.respond (encResponse s.cfg s.draw s.portX))

/-- DEC (R124). -/
def execDec (s : State) : Host.Outcome State Fault Refusal := .next (s.respond (decResponse s.cfg s.draw s.portA))

end Sys2Proof.Machine
end

