-- ==== Sys2Proof/Machine/Dispatch.lean ====
section
/-! DEFINITION. The dispatch: one arm per command, each a call of its meaning. -/

namespace Sys2Proof.Machine

/-- The effect of accepting a command with this instruction, its operands on the ports at the coming edge (30_encoding.md R57). -/
def exec (i : Instr) (s : State) : Host.Outcome State Fault Refusal :=
  match i with
  | .zero => Sys2Proof.Machine.execZero s
  | .b2u n => Sys2Proof.Machine.execB2u n s
  | .b2s n => Sys2Proof.Machine.execB2s n s
  | .u2b n => Sys2Proof.Machine.execU2b n s
  | .s2b n => Sys2Proof.Machine.execS2b n s
  | .dexp => Sys2Proof.Machine.execDexp s
  | .enc => Sys2Proof.Machine.execEnc s
  | .dec => Sys2Proof.Machine.execDec s
  | .neg => Sys2Proof.Machine.execNeg s
  | .add => Sys2Proof.Machine.execAdd s
  | .sub => Sys2Proof.Machine.execSub s
  | .mul => Sys2Proof.Machine.execMul s
  | .rcpa => Sys2Proof.Machine.execRcpa s
  | .diva => Sys2Proof.Machine.execDiva s

end Sys2Proof.Machine
end

