-- ==== Sys2Proof/Machine/Accept.lean ====
section
/-! DEFINITION. What accepting a command does: its header is decoded and the command it names is run. -/

namespace Sys2Proof.Machine

/-- The command on the ports run: decoded and executed, or answered as invalid where its opcode is reserved (30_encoding.md R60). -/
def runCommand (s : State) : Host.Outcome State Fault Refusal :=
  match decode s.portH with
  | .ok i => exec i s
  | .error _ => .next s.raiseInvalid

end Sys2Proof.Machine
end

