-- ==== Sys2Proof/Machine/Step.lean ====
section
/-! DEFINITION. One step: one rising edge of `clk` (70_reset_and_hazards.md R200). -/

namespace Sys2Proof.Machine

/-- One rising edge: a command is accepted and run if the handshake says so, then the edge does the rest of what it does
(R200). Commands run at the edge that accepts them; when the host sees a response is left to the edges' free bits. -/
def step (s : State) : Host.Outcome State Fault Refusal :=
  if s.accepts then
    match runCommand s with
    | .next t => .next t.finishEdge
    | .fault r => .fault r
    | .refused r => .refused r
  else .next s.finishEdge

/-- An edge that presents a header on the command ports and is not prevented from accepting it. -/
def Edge.present {c : Config} (e : Edge c) (h : Header) : Edge c :=
  { e with rst := false, cmdValid := true, unitReady := true, cmd := { e.cmd with h := h } }

/-- The word stored where the next step takes its command from: the header port at the coming edge. The unit fetches nothing
(10_state.md R26); the command comes from the host, which raises `cmd_valid`, with the unit ready and `rst` low (notes/assumptions/5.md). -/
def State.withFetchWord (s : State) (nbits w : Nat) : State :=
  { s with host := s.edge.present (headerOfWord nbits w) :: s.host.tail }

end Sys2Proof.Machine
end

