-- ==== Sys2Proof/Machine/Assembler.lean ====
section
/-! DEFINITION. The assembler notation of 30_encoding.md R70 to R72: which header a mnemonic and its width operand give, which bits an
operand stands for and on which port, and what the name of a line is bound to. Lines come taken apart into their names and
operands: how characters make numbers is not part of it (notes/assumptions/13.md). -/

namespace Sys2Proof.Machine

/-- The mnemonics by operation code (R57). -/
def mnemonics : List String :=
  ["ZERO", "B2U", "B2S", "U2B", "S2B", "DEXP", "ENC", "DEC", "NEG", "ADD", "SUB", "MUL", "RCPA", "DIVA"]

/-- The source's function names, each with the mnemonic it stands for (R71). -/
def sourceNames : List (String × String) :=
  [("bits_to_unsigned", "B2U"), ("bits_to_signed", "B2S"), ("unsigned_to_bits", "U2B"), ("signed_to_bits", "S2B"),
    ("decimal_exponent", "DEXP"), ("encode", "ENC"), ("decode", "DEC"), ("negate", "NEG"), ("add", "ADD"),
    ("subtract", "SUB"), ("multiply", "MUL"), ("reciprocal", "RCPA"), ("approximate_reciprocal", "RCPA"),
    ("divide", "DIVA")]

/-- A name as its mnemonic: a source name stands for one, any other name for itself (R71). -/
def canonicalName (name : String) : String := (sourceNames.lookup name).getD name

/-- The operation code of a name (R57, R71). -/
def opcodeOf (name : String) : Option Nat := mnemonics.findIdx? (· == canonicalName name)

/-- The header a line is assembled to (R70): the four codec conversions are written with a width, which fills `N`; the others without one,
and `N = 0`. -/
def assemble (name : String) (width : Option Nat) : Option Header :=
  match opcodeOf name, width with
  | some op, some n =>
    if 1 ≤ op ∧ op ≤ 4 ∧ n < 128 then some (header (BitVec.ofNat 7 n) (BitVec.ofNat 4 op)) else none
  | some op, none => if 1 ≤ op ∧ op ≤ 4 then none else some (header 0 (BitVec.ofNat 4 op))
  | none, _ => none

/-- The literal `cf(s, e, m)` (R70): `s ‖ trunc_E(e) ‖ trunc_M(m)`, for fields in range. -/
def cfLiteral (c : Config) (s : Bool) (e : Int) (m : Nat) : Option (BitVec c.W) :=
  if c.EMIN ≤ e ∧ e ≤ c.EMAX ∧ m ≤ c.MMAX then some (cfWord s (BitVec.ofInt c.E e) (BitVec.ofNat c.M m)) else none

/-- Whether the result a line names is `Y`; of the other commands it is `R` (R70). -/
def namesScalar : Instr → Bool
  | .zero => false
  | .b2u _ => true
  | .b2s _ => true
  | .u2b _ => true
  | .s2b _ => true
  | .dexp => true
  | .enc => false
  | .dec => true
  | .neg => false
  | .add => false
  | .sub => false
  | .mul => false
  | .rcpa => false
  | .diva => false

/-- What a name of the notation stands for: a CF word or a scalar (R70). -/
inductive Value (c : Config) where
  | word (w : BitVec c.W)
  | scalar (x : Scalar)
deriving DecidableEq, Repr

/-- An operand as it can be written (R70). -/
inductive Operand where
  /-- A value name. -/
  | name (n : String)
  /-- `cf(<s>, <e>, <m>)`. -/
  | cf (s : Bool) (e : Int) (m : Nat)
  /-- `0x...`, a word of `W` bits. -/
  | hex (w : Nat)
  /-- `0b...`, most significant digit first. -/
  | bits (digits : BitSeq)
  /-- An integer literal. -/
  | integer (i : Int)
  /-- A decimal literal: a sign, the digits as an integer, and the power of ten they are scaled by. -/
  | decimal (neg : Bool) (digits : Nat) (scale : Int)
  /-- `+inf`, `-inf`. -/
  | infinite (neg : Bool)
  /-- `nan`. -/
  | nan
  /-- `nf:0x...`, the encoding bits of a native float. -/
  | encoded (b : Nat)
deriving DecidableEq, Repr

/-- A CF operand: a value name, a literal or a hexadecimal word (R70). -/
def cfOperand {c : Config} (env : List (String × Value c)) : Operand → Option (BitVec c.W)
  | .name n =>
    match env.lookup n with
    | some (.word w) => some w
    | some (.scalar _) => none
    | none => none
  | .cf s e m => cfLiteral c s e m
  | .hex w => if w < 2 ^ c.W then some (BitVec.ofNat c.W w) else none
  | _ => none

/-- A scalar operand that is a value name (R70). -/
def namedScalar {c : Config} (env : List (String × Value c)) (n : String) : Option Scalar :=
  match env.lookup n with
  | some (.scalar x) => some x
  | some (.word _) => none
  | none => none

/-- The operand of B2U.N and B2S.N: a literal of exactly `N` digits, or a value name (R70). -/
def bitsOperand {c : Config} (env : List (String × Value c)) (n : WidthField) : Operand → Option Scalar
  | .name v => namedScalar env v
  | .bits ds => if ds.length = n.toNat then some (BitVec.ofNat 64 (bitsToUnsigned ds)) else none
  | _ => none

/-- The operand of U2B.N and of S2B.N: an integer literal that the port holds, or a value name (R70). -/
def integerOperand {c : Config} (env : List (String × Value c)) (isSigned : Bool) : Operand → Option Scalar
  | .name v => namedScalar env v
  | .integer i =>
    if isSigned then (if -2 ^ 63 ≤ i ∧ i < 2 ^ 63 then some (BitVec.ofInt 64 i) else none)
    else if 0 ≤ i ∧ i < 2 ^ 64 then some (BitVec.ofInt 64 i) else none
  | _ => none

/-- The native value nearest to a decimal literal (R70). -/
def decimalValue (f : NF) (neg : Bool) (digits : Nat) (scale : Int) : Native :=
  fRound f neg (digits * 10 ^ scale.toNat) (10 ^ (-scale).toNat)

/-- The operand of DEXP and ENC: a native float or a value name (R70). Which NaN `nan` is, is left to `free`. -/
def floatLiteral {c : Config} (env : List (String × Value c)) (free : BitVec 64) : Operand → Option Scalar
  | .name v => namedScalar env v
  | .decimal neg digits scale => some ((fBits c.nf (decimalValue c.nf neg digits scale)).setWidth 64)
  | .infinite neg => some ((fBits c.nf (.inf neg)).setWidth 64)
  | .nan => some ((fBits c.nf (madeNaN ⟨c.nf, free⟩)).setWidth 64)
  | .encoded b => if b < 2 ^ c.nf.width then some (BitVec.ofNat 64 b) else none
  | _ => none

/-- A command on the ports, from its instruction and its operands in port order; a port without an operand is given zero (R70). -/
def assembleOperands {c : Config} (env : List (String × Value c)) (free : BitVec 64) (i : Instr) (operands : List Operand) :
    Option (Command c) :=
  let h := encode i
  match i, operands with
  | .zero, [] => some ⟨h, 0, 0, 0⟩
  | .b2u n, [o] => (bitsOperand env n o).map fun x => ⟨h, 0, 0, x⟩
  | .b2s n, [o] => (bitsOperand env n o).map fun x => ⟨h, 0, 0, x⟩
  | .u2b _, [o] => (integerOperand env false o).map fun x => ⟨h, 0, 0, x⟩
  | .s2b _, [o] => (integerOperand env true o).map fun x => ⟨h, 0, 0, x⟩
  | .dexp, [o] => (floatLiteral env free o).map fun x => ⟨h, 0, 0, x⟩
  | .enc, [o] => (floatLiteral env free o).map fun x => ⟨h, 0, 0, x⟩
  | .dec, [o] => (cfOperand env o).map fun a => ⟨h, a, 0, 0⟩
  | .neg, [o] => (cfOperand env o).map fun a => ⟨h, a, 0, 0⟩
  | .rcpa, [o] => (cfOperand env o).map fun a => ⟨h, a, 0, 0⟩
  | .add, [o, p] => (cfOperand env o).bind fun a => (cfOperand env p).map fun b => ⟨h, a, b, 0⟩
  | .sub, [o, p] => (cfOperand env o).bind fun a => (cfOperand env p).map fun b => ⟨h, a, b, 0⟩
  | .mul, [o, p] => (cfOperand env o).bind fun a => (cfOperand env p).map fun b => ⟨h, a, b, 0⟩
  | .diva, [o, p] => (cfOperand env o).bind fun a => (cfOperand env p).map fun b => ⟨h, a, b, 0⟩
  | _, _ => none

/-- One line of the notation as a command (R70): mnemonic or source name, width, operands. -/
def assembleLine {c : Config} (env : List (String × Value c)) (free : BitVec 64) (mnemonic : String) (width : Option Nat)
    (operands : List Operand) : Option (Command c) :=
  match assemble mnemonic width with
  | none => none
  | some h =>
    match decode h with
    | .ok i => assembleOperands env free i operands
    | .error _ => none

/-- What the name of a line is bound to: `Y` or `R` of its response (R70). -/
def resultValue {c : Config} (i : Instr) (p : Response c) : Value c := if namesScalar i then .scalar p.y else .word p.r

/-- `<name> = CF <s>, <e>, <m>`, which emits no command and binds the name to the literal (R72). -/
def bindLiteral {c : Config} (env : List (String × Value c)) (name : String) (s : Bool) (e : Int) (m : Nat) :
    Option (List (String × Value c)) :=
  (cfLiteral c s e m).map fun w => (name, .word w) :: env

end Sys2Proof.Machine
end

