-- ==== Sys2Proof/Machine/Transaction.lean ====
section
/-! DEFINITION. The unit as the one pure function of 00_scope.md R13, from an instance and a command to a response. -/

namespace Sys2Proof.Machine

/-- The response of an instruction to the operands of a command. `draw` picks the NaN where DEC computes one (R126). -/
def response (c : Config) (i : Instr) (m : Command c) (draw : Nat) : Response c :=
  match i with
  | .zero => zeroResponse c
  | .b2u n => b2uResponse c n m.x
  | .b2s n => b2sResponse c n m.x
  | .u2b n => u2bResponse c n m.x
  | .s2b n => s2bResponse c n m.x
  | .dexp => dexpResponse c draw m.x
  | .enc => encResponse c draw m.x
  | .dec => decResponse c draw m.a
  | .neg => negResponse c m.a
  | .add => addResponse c m.a m.b
  | .sub => subResponse c m.a m.b
  | .mul => mulResponse c m.a m.b
  | .rcpa => rcpaResponse c m.a
  | .diva => divaResponse c m.a m.b

/-- The response to a command, its header decoded (R13, R65): a reserved opcode gives the invalid response (R60). -/
def transact (c : Config) (m : Command c) (draw : Nat) : Response c :=
  match decode m.h with
  | .ok i => response c i m draw
  | .error _ => Response.invalid c

end Sys2Proof.Machine
end

