-- ==== Sys2Proof/Machine/Ports.lean ====
section
/-! DEFINITION. What stands on the response ports at the coming edge (10_state.md R24, R37, 70_reset_and_hazards.md R200). -/

namespace Sys2Proof.Machine

/-- `R`, `Y`, `ST` at the coming edge (R37, R200): while `rsp_valid = 1`, the response to the command on offer if the unit answers it
combinationally, else the oldest in flight; otherwise nothing a host may read (DESIGN CHOICE, notes/assumptions/9.md). -/
def State.ports (s : State) : Option (Response s.cfg) :=
  if s.showsOffered then some (transact s.cfg s.command s.draw)
  else if s.oldestDone then s.inFlight.head? else none

end Sys2Proof.Machine
end

