-- ==== Sys2Proof/Safety.lean ====
section
/-! DEFINITION. The terms in which statements are made: what a completed command leaves, the fields and the ideal value of a CF
word, which responses and states are sound, and the host's duties. No step depends on anything here. -/

namespace Sys2Proof.Safety

open Sys2Proof.Machine

/-- `exec i s` completes with the response `p`: it is the youngest in flight, the index of the free values has moved on, and
nothing else has changed (70_reset_and_hazards.md R201, 60_exceptions.md R181). -/
def Answers (i : Instr) (s : State) (p : Response s.cfg) : Prop :=
  exec i s = .next { s with inFlight := s.inFlight ++ [p], draw := s.draw + 1 }

/-- `sint(c[W-2:M])`, the exponent of a CF word as R62 reads it. -/
def exponent {c : Config} (w : BitVec c.W) : Int := (w.extractLsb' c.M c.E).toInt

/-- `uint(c[M-1:0])`, the mantissa of a CF word as R62 reads it. -/
def mantissa {c : Config} (w : BitVec c.W) : Nat := (w.extractLsb' 0 c.M).toNat

/-- `c[W-1]`, the sign of a CF word as R62 reads it. -/
def negative {c : Config} (w : BitVec c.W) : Bool := w.msb

/-- `val(c)`, the ideal value of a CF word (10_state.md R33). -/
def idealValue {c : Config} (w : BitVec c.W) : ℚ :=
  (if negative w then -1 else 1) * (10 : ℚ) ^ exponent w * mantissa w / c.MM

/-- A canonical CF word (R32). No command checks it and no command restores it. -/
def canonical {c : Config} (w : BitVec c.W) : Prop :=
  w = cfZero c ∨ (c.MM ≤ mantissa w ∧ mantissa w < 10 * c.MM)

/-- The rational value of a finite native float (R101). -/
def realValue (s : Bool) (m : Nat) (e : Int) : ℚ := (if s then -1 else 1) * m * (2 : ℚ) ^ e

/-- `v` is what IEEE 754 rounding to nearest, ties to even, makes of the rational `q` in the format (41_decimalscale.md R101): a
finite value of the format such that no other is nearer to `q` and none as near unless `v`'s last significand bit is 0;
or an infinity, exactly where `q` is at least half a last place beyond the largest finite value. -/
def RoundsTo (f : NF) (q : ℚ) : Native → Prop
  | .nan _ _ => False
  | .inf _ => ((2 : ℚ) ^ precision f - 1 / 2) * 2 ^ maxExp f ≤ |q|
  | .fin s m e =>
    fCanonical f (.fin s m e) ∧ |q| < ((2 : ℚ) ^ precision f - 1 / 2) * 2 ^ maxExp f ∧
    ∀ t n g, fCanonical f (.fin t n g) →
      |realValue s m e - q| ≤ |realValue t n g - q| ∧
      (|realValue s m e - q| = |realValue t n g - q| → realValue t n g ≠ realValue s m e → m % 2 = 0)

/-- The sign of a native value. -/
def signOf : Native → Bool
  | .nan s _ => s
  | .inf s => s
  | .fin s _ _ => s

/-- `P10F(k)` with every one of its multiplications (R105). -/
def powerOfTenUncapped (a : Arith) (k : Int) : Native :=
  let p := timesTen a k.natAbs (fOne a.nf)
  if k < 0 then fDiv a (fOne a.nf) p else p

/-- The value after `k` divisions by ten. -/
def divided (a : Arith) (k : Nat) (v : Native) : Native := (fun m => fDiv a m (fTen a.nf))^[k] v

/-- The value after `k` multiplications by ten. -/
def multiplied (a : Arith) (k : Nat) (v : Native) : Native := (fun m => fMul a m (fTen a.nf))^[k] v

/-- The loops of `DEXPF` (41_decimalscale.md R103) without fuel: from `v` the first runs exactly `down` times, every value before being at
least ten, and from there the second exactly `up` times, every value before being below one. -/
def LoopsRun (a : Arith) (v : Native) (down up : Nat) : Prop :=
  (∀ j < down, fGe (divided a j v) (fTen a.nf) = true) ∧ fGe (divided a down v) (fTen a.nf) = false ∧
  (∀ j < up, fLt (multiplied a j (divided a down v)) (fOne a.nf) = true) ∧
  fLt (multiplied a up (divided a down v)) (fOne a.nf) = false

/-- `e = DEXPF(v)` as R103 says it: zero for a zero, and otherwise the runs of the first loop less those of the second. -/
def IsDecimalExponent (a : Arith) (v : Native) (e : Int) : Prop :=
  (fIsZero v = true ∧ e = 0) ∨ (fIsZero v = false ∧ ∃ down up : Nat, LoopsRun a v down up ∧ e = down - up)

/-- Bits of the fraction field of a format: IEEE 754's interchange layouts, `1 + 8 + 23` and `1 + 11 + 52` bits (00_scope.md R10). -/
def fractionWidth : NF → Nat
  | .binary32 => 23
  | .binary64 => 52

/-- Bits of the exponent field of a format (R10). -/
def exponentWidth : NF → Nat
  | .binary32 => 8
  | .binary64 => 11

/-- The exponent bias of a format. -/
def bias : NF → Int
  | .binary32 => 127
  | .binary64 => 1023

/-- What an encoding with sign `s`, exponent field `x` and fraction `t` stands for in IEEE 754 (41_decimalscale.md R100, R101): the top
exponent is an infinity or a NaN, exponent 0 a zero or a subnormal, any other a value with a leading one. -/
def Encodes (f : NF) (s : Bool) (x t : Nat) (v : Native) : Prop :=
  if x = 2 ^ exponentWidth f - 1 then v = (if t = 0 then .inf s else .nan s t)
  else ∃ m e, v = .fin s m e ∧ realValue s m e =
    (if s then -1 else 1) * (if x = 0 then (t : ℚ) * 2 ^ (1 - bias f - fractionWidth f)
      else (2 ^ fractionWidth f + t) * 2 ^ (x - bias f - fractionWidth f))

/-- A CF word taken apart as R62 reads it. -/
def parts {c : Config} (w : BitVec c.W) : Fields := ⟨negative w, exponent w, mantissa w⟩

/-- The mantissas of two operands aligned to the larger exponent and added with their signs (43_arithmetic.md R142, steps 1 to 3),
the powers of ten exact. -/
def exactSum (p q : Fields) : Int :=
  let ma := if p.e < q.e then p.m / 10 ^ (q.e - p.e).toNat else p.m
  let mb := if q.e < p.e then q.m / 10 ^ (p.e - q.e).toNat else q.m
  (if p.s then -(ma : Int) else ma) + (if q.s then -(mb : Int) else mb)

/-- The response of ADD to two operands taken apart (R142): the sign, exponent and mantissa of the sum, the mantissa wrapped to `M`
bits and that wrap flagged in `ST[1]`. -/
def sumResponse (c : Config) (p q : Fields) : Response c :=
  let sum := exactSum p q
  ⟨cfWord (decide (sum < 0)) (BitVec.ofInt c.E (max p.e q.e)) (BitVec.ofNat c.M sum.natAbs), 0,
    if c.MMAX < sum.natAbs then 0b0010#4 else 0b0000#4⟩

/-- The names of the notation with the operation codes they stand for: the mnemonics (30_encoding.md R57) and the aliases (R71). -/
def namedOpcodes : List (String × Nat) :=
  [("ZERO", 0), ("B2U", 1), ("B2S", 2), ("U2B", 3), ("S2B", 4), ("DEXP", 5), ("ENC", 6), ("DEC", 7), ("NEG", 8), ("ADD", 9),
    ("SUB", 10), ("MUL", 11), ("RCPA", 12), ("DIVA", 13), ("bits_to_unsigned", 1), ("bits_to_signed", 2),
    ("unsigned_to_bits", 3), ("signed_to_bits", 4), ("decimal_exponent", 5), ("encode", 6), ("decode", 7), ("negate", 8),
    ("add", 9), ("subtract", 10), ("multiply", 11), ("reciprocal", 12), ("approximate_reciprocal", 12), ("divide", 13)]

/-- Every mnemonic and alias gives its header: the four codec conversions with their width in `N`, the others with `N = 0` (R57, R70, R71). -/
def NamesAssemble : Prop :=
  ∀ p ∈ namedOpcodes,
    if 1 ≤ p.2 ∧ p.2 ≤ 4 then ∀ n < 128, assemble p.1 (some n) = some (header (BitVec.ofNat 7 n) (BitVec.ofNat 4 p.2))
    else assemble p.1 none = some (header 0 (BitVec.ofNat 4 p.2))

/-- The operands of a line stand on the ports in the order of R70's table, under every name that gives the header. -/
def OperandsStandInPortOrder : Prop :=
  ∀ (c : Config) (env : List (String × Value c)) (free : BitVec 64) (name : String) (h : Header) (o q : Operand),
    (∀ n : Nat, assemble name (some n) = some h →
      (opField h = 1 ∨ opField h = 2 →
        assembleLine env free name (some n) [o] = (bitsOperand env (nField h) o).map fun x => ⟨h, 0, 0, x⟩) ∧
      (opField h = 3 → assembleLine env free name (some n) [o] = (integerOperand env false o).map fun x => ⟨h, 0, 0, x⟩) ∧
      (opField h = 4 → assembleLine env free name (some n) [o] = (integerOperand env true o).map fun x => ⟨h, 0, 0, x⟩)) ∧
    (assemble name none = some h →
      (opField h = 0 → assembleLine env free name none [] = some ⟨h, 0, 0, 0⟩) ∧
      (opField h = 5 ∨ opField h = 6 →
        assembleLine env free name none [o] = (floatLiteral env free o).map fun x => ⟨h, 0, 0, x⟩) ∧
      (opField h = 7 ∨ opField h = 8 ∨ opField h = 12 →
        assembleLine env free name none [o] = (cfOperand env o).map fun a => ⟨h, a, 0, 0⟩) ∧
      (opField h = 9 ∨ opField h = 10 ∨ opField h = 11 ∨ opField h = 13 →
        assembleLine env free name none [o, q] =
          (cfOperand env o).bind fun a => (cfOperand env q).map fun b => ⟨h, a, b, 0⟩))

/-- What each form of an operand stands for (R70). -/
def LiteralsMean : Prop :=
  ∀ (c : Config) (env : List (String × Value c)) (free : BitVec 64),
    (∀ (n : String) (w : BitVec c.W), env.lookup n = some (.word w) → cfOperand env (.name n) = some w) ∧
    (∀ (n : String) (x : Scalar), env.lookup n = some (.scalar x) →
      (∀ k, bitsOperand env k (.name n) = some x) ∧ (∀ b, integerOperand env b (.name n) = some x) ∧
      floatLiteral env free (.name n) = some x) ∧
    (∀ (s : Bool) (e : Int) (m : Nat), c.EMIN ≤ e → e ≤ c.EMAX → m ≤ c.MMAX →
      ∃ w, cfOperand env (.cf s e m) = some w ∧ negative w = s ∧ exponent w = e ∧ mantissa w = m) ∧
    (∀ w : BitVec c.W, cfOperand env (.hex w.toNat) = some w) ∧
    (∀ (k : WidthField) (v : BitVec k.toNat), k.toNat ≤ 64 → bitsOperand env k (.bits (seqOf v)) = some (v.setWidth 64)) ∧
    (∀ x : Scalar, integerOperand env false (.integer x.toNat) = some x ∧ integerOperand env true (.integer x.toInt) = some x) ∧
    (∀ (s : Bool) (digits : Nat) (scale : Int), ∃ v, RoundsTo c.nf ((if s then -1 else 1) * digits * 10 ^ scale) v ∧ signOf v = s ∧
      floatLiteral env free (.decimal s digits scale) = some ((fBits c.nf v).setWidth 64)) ∧
    (∀ s : Bool, floatLiteral env free (.infinite s) = some ((fBits c.nf (.inf s)).setWidth 64)) ∧
    (∃ s frac, fCanonical c.nf (.nan s frac) ∧ floatLiteral env free .nan = some ((fBits c.nf (.nan s frac)).setWidth 64)) ∧
    (∀ b : BitVec c.nf.width, floatLiteral env free (.encoded b.toNat) = some (b.setWidth 64))

/-- Whether a command reads the port `A` (10_state.md R36). -/
def readsA : Instr → Bool
  | .dec | .neg | .rcpa | .add | .sub | .mul | .diva => true
  | .zero | .b2u _ | .b2s _ | .u2b _ | .s2b _ | .dexp | .enc => false

/-- Whether a command reads the port `B` (R36). -/
def readsB : Instr → Bool
  | .add | .sub | .mul | .diva => true
  | .dec | .neg | .rcpa | .zero | .b2u _ | .b2s _ | .u2b _ | .s2b _ | .dexp | .enc => false

/-- How many low bits of the port `X` a command reads (R36, R61). -/
def readsX (c : Config) : Instr → Nat
  | .b2u n | .b2s n => n.toNat
  | .u2b _ | .s2b _ => 64
  | .dexp | .enc => c.nf.width
  | .zero | .dec | .neg | .rcpa | .add | .sub | .mul | .diva => 0

/-- A response as the rules promise it: with `INV` everything else is zero (60_exceptions.md R174), `OOR_I` never comes with
`OOR_X` or `OOR_M` (R177), and one of `R` and `Y` is unused and so zero (10_state.md R36). -/
def Sound {c : Config} (p : Response c) : Prop :=
  (p.inv = true → p = ⟨0, 0, 0b1000#4⟩) ∧ (p.oorI = true → p.oorX = false ∧ p.oorM = false) ∧ (p.r = 0 ∨ p.y = 0)

/-- What holds of the machine at reset and after every step: its responses are sound, and a raised `rsp_valid` is
recorded only over a response in flight (the model's choice, notes/assumptions/4.md and 14.md). -/
def SoundState (s : State) : Prop :=
  (∀ p ∈ s.inFlight, Sound p) ∧ (∀ p ∈ s.received, Sound p) ∧ (s.rspValid = true → s.inFlight ≠ [])

/-- Whether the command of an edge is accepted (R200). -/
def takes {c : Config} (e : Edge c) : Bool := e.cmdValid && e.unitReady && !e.rst

/-- The commands that a list of edges gets accepted, in order. -/
def acceptedCommands {c : Config} (es : List (Edge c)) : List (Command c) := (es.filter takes).map Edge.cmd

/-- The host's duty of R202: while a command is offered and not yet accepted, it stays unchanged from edge to edge. The model does not
need it: it samples the ports at the accepting edge only. -/
def holdsStable {c : Config} : List (Edge c) → Prop
  | [] => True
  | [_] => True
  | e :: e' :: es => (e.cmdValid = true → takes e = false → e'.cmdValid = true → e'.cmd = e.cmd) ∧ holdsStable (e' :: es)

end Sys2Proof.Safety
end

