-- ==== Sys2Proof/WellFormed.lean ====
section
/-! DEFINITION. Which commands are valid by their header alone (30_encoding.md R58). An ill-formed command is still
accepted and answered: its response is the invalid one (R174 (b)). -/

namespace Sys2Proof

/-- Why a header's width operand is illegal (R58). -/
inductive WidthError where
  /-- `N = 0` on a conversion. -/
  | zero
  /-- `N = 1` on a signed conversion, which is defined for "N > 1" only. -/
  | oneOnSigned
  /-- `N > 64`. -/
  | above64
deriving DecidableEq, Repr

/-- The width test of B2U and U2B (R58): `1 ≤ N ≤ 64`. -/
def checkUnsigned (n : WidthField) : Option WidthError :=
  if n.toNat = 0 then some .zero else if 64 < n.toNat then some .above64 else none

/-- The width test of B2S and S2B (R58): `2 ≤ N ≤ 64`. -/
def checkSigned (n : WidthField) : Option WidthError :=
  if n.toNat = 0 then some .zero else if n.toNat = 1 then some .oneOnSigned
  else if 64 < n.toNat then some .above64 else none

/-- What is wrong with an instruction's width operand, if anything. -/
def Instr.check : Instr → Option WidthError
  | .b2u n => checkUnsigned n
  | .b2s n => checkSigned n
  | .u2b n => checkUnsigned n
  | .s2b n => checkSigned n
  | .zero => none
  | .dexp => none
  | .enc => none
  | .dec => none
  | .neg => none
  | .add => none
  | .sub => none
  | .mul => none
  | .rcpa => none
  | .diva => none

/-- An instruction whose width operand, if it has one, is legal. -/
def Instr.wellFormed (i : Instr) : Bool := i.check.isNone

end Sys2Proof
end

