-- ==== Sys2Proof/Certificates/Slice0/Obligations.lean ====
section
/-! DEFINITION. The statements about the model, each from the spec's rules. The words they are made in (`Answers`, `parts`,
`sumResponse`, `RoundsTo`, `SoundState` …) are defined in Sys2Proof/Safety.lean. `Answers i s p` says that `exec i s` IS a next state, and
which one: the response `p` added as the youngest in flight, the draw index moved on, and every other field of `s` as it was. -/

open Sys2Proof Sys2Proof.Machine Sys2Proof.Safety

/-! ### Headers -/

/-- R57, R200: an instruction's encoding decodes to it, from a word of any size that holds a header; and placed on the header port,
it is what the next step runs. -/
def Obligations.EncodedCommandDecodesAndRunsNext : Prop :=
  ∀ (i : Instr) (s : State) (nbits : Nat), 11 ≤ nbits →
    decodeTableWord nbits (encode i).toNat = some i ∧
    ∃ t, exec i (s.withFetchWord nbits (encode i).toNat) = .next t ∧
      step (s.withFetchWord nbits (encode i).toNat) = .next t.finishEdge

/-- R59: outside the four codec conversions `N` changes nothing, and the encoder and the assembler write 0 there. -/
def Obligations.WidthFieldIgnoredOutsideCodec : Prop :=
  (∀ h h' : Header, opField h = opField h' → ((opField h).toNat = 0 ∨ 5 ≤ (opField h).toNat) →
    decode h = decode h') ∧
  (∀ i : Instr, ((opField (encode i)).toNat = 0 ∨ 5 ≤ (opField (encode i)).toNat) → nField (encode i) = 0) ∧
  (∀ (name : String) (width : Option Nat) (h : Header), assemble name width = some h →
    ((opField h).toNat = 0 ∨ 5 ≤ (opField h).toNat) → nField h = 0)

/-- R70, R71: each mnemonic and alias gives its header, operands stand on the ports in port order and literals mean what the notation
says (`NamesAssemble`, `OperandsStandInPortOrder`, `LiteralsMean`). And a line that assembles is the command its header
decodes to, written as the encoder writes it (R59); ports that a valid command does not read are zero, the model's choice
(notes/assumptions/13.md). -/
def Obligations.AssembledLineIsItsCommand : Prop :=
  NamesAssemble ∧ OperandsStandInPortOrder ∧ LiteralsMean ∧
  ∀ (c : Config) (env : List (String × Value c)) (free : BitVec 64) (mnemonic : String) (width : Option Nat)
    (operands : List Operand) (m : Command c),
    assembleLine env free mnemonic width operands = some m →
    ∃ i, decode m.h = .ok i ∧ encode i = m.h ∧ (∀ h, assemble mnemonic width = some h → h = m.h) ∧
      (readsA i = false → m.a = 0) ∧ (readsB i = false → m.b = 0) ∧ (i.wellFormed = true → readsX c i = 0 → m.x = 0)

/-- R58, R65: each header has exactly one meaning, a command or a reserved opcode; of the 2048 headers, 1534 are well-formed
commands. -/
def Obligations.EveryHeaderHasOneMeaning : Prop :=
  (∀ h : Header, (14 ≤ (opField h).toNat ∧ decode h = .error (.reservedOp (opField h))) ∨
    ((opField h).toNat < 14 ∧ ∃ i, decode h = .ok i ∧ opField (encode i) = opField h)) ∧
  ((List.range 2048).filter fun w =>
    match decode (BitVec.ofNat 11 w) with
    | .ok i => i.wellFormed
    | .error _ => false).length = 1534

/-- 30_encoding.md section 8: the headers of its example lines decode to the commands they are examples of. -/
def Obligations.ExampleHeadersDecode : Prop :=
  decode 0x021#11 = .ok (.b2u 2) ∧ decode 0x032#11 = .ok (.b2s 3) ∧ decode 0x083#11 = .ok (.u2b 8) ∧
  decode 0x084#11 = .ok (.s2b 8) ∧ decode 0x005#11 = .ok .dexp ∧ decode 0x006#11 = .ok .enc ∧
  decode 0x007#11 = .ok .dec ∧ decode 0x009#11 = .ok .add ∧ decode 0x000#11 = .ok .zero

/-! ### The instance -/

/-- R8, R186: parameters elaborate exactly when they are legal, and then to those parameters. -/
def Obligations.ElaborationAcceptsExactlyLegalParameters : Prop :=
  ∀ (E M : Nat) (nf : NF),
    ((Config.elaborate E M nf).isSome ↔ 2 ≤ E ∧ 1 ≤ M ∧ 1 + E + M ≤ 128) ∧
    ∀ c, Config.elaborate E M nf = some c → c.E = E ∧ c.M = M ∧ c.nf = nf ∧ c.W = 1 + E + M

/-- R9: `MM` is the largest power of ten not above `2 ^ M`, and `D` its exponent. -/
def Obligations.MultiplierIsLargestPowerOfTen : Prop :=
  ∀ c : Config, c.MM = 10 ^ c.D ∧ c.MM ≤ 2 ^ c.M ∧ 2 ^ c.M < 10 * c.MM ∧ c.D ≤ 37

/-! ### Reset, the clock edge and the order of responses -/

/-- R37, R196: after reset, of any instance, nothing is in flight, no response is pending, and none can be read. -/
def Obligations.ResetLeavesNothingInFlight : Prop :=
  ∀ c : Config, (State.resetOf c).cfg = c ∧ (State.resetOf c).inFlight = [] ∧
    (State.resetOf c).rspValid = false ∧ (State.resetOf c).ports = none ∧ State.reset = State.resetOf State.reset.cfg

/-- R196, R197: at an edge with `rst = 1` no command is accepted, and after it nothing is in flight and `rsp_valid = 0`. That a response
already valid is delivered at that edge is the model's reading (notes/assumptions/7.md). -/
def Obligations.ResetEdgeDropsUnanswered : Prop :=
  ∀ s : State, s.edge.rst = true → s.cmdReady = false ∧
    step s = .next
      { s with
        host := s.host.tail
        inFlight := []
        rspValid := false
        received := if s.presents && s.edge.rspReady then s.received ++ s.inFlight.take 1 else s.received }

/-- R200: at an edge that accepts a command, the command its header decodes to is executed on the ports, then the edge
does the rest of what it does. -/
def Obligations.StepRunsDecodedCommand : Prop :=
  ∀ (s : State) (i : Instr), s.edge.cmdValid = true → s.cmdReady = true → s.edge.rst = false →
    decode s.portH = .ok i → ∃ t, exec i s = .next t ∧ step s = .next t.finishEdge

/-- R200: at an edge that accepts none, without reset, the only change is that the oldest response may be delivered, or rise and wait.
That a response once up stays up is the model's choice (notes/assumptions/14.md). -/
def Obligations.EdgeWithoutCommandOnlyDelivers : Prop :=
  ∀ s : State, (s.edge.cmdValid && s.cmdReady) = false → s.edge.rst = false →
    step s = .next
      { s with
        host := s.host.tail
        inFlight := if s.presents && s.edge.rspReady then s.inFlight.drop 1 else s.inFlight
        rspValid := s.oldestDone && !s.edge.rspReady
        received := if s.presents && s.edge.rspReady then s.received ++ s.inFlight.take 1 else s.received }

/-- R60: a command with a reserved opcode is accepted like any other and answered with the invalid response. -/
def Obligations.ReservedOpcodeAnswersInvalid : Prop :=
  ∀ s : State, s.accepts = true → 14 ≤ (opField s.portH).toNat →
    step s = .next (State.finishEdge
      { s with inFlight := s.inFlight ++ [⟨0, 0, 0b1000#4⟩], draw := s.draw + 1 })

/-- R203, R205, R28: no state stops the machine; every step leaves the instance's parameters as they are. -/
def Obligations.EveryStepCompletes : Prop :=
  ∀ s : State, ∃ (inF : List (Response s.cfg)) (v : Bool) (got : List (Response s.cfg)) (d : Nat),
    step s = .next ⟨s.cfg, s.host.tail, inF, v, got, d⟩

/-- R20, R44, R46 (b): an accepted command adds the one response that is a function of the instance and the command; the
draw, the one thing else it is given, matters only where DEC computes a NaN. That the draw is `s.draw`, a count of accepted
commands, is the model's choice (notes/assumptions/2.md). -/
def Obligations.ResponseDependsOnCommandAlone : Prop :=
  (∀ s : State, s.accepts = true →
    step s = .next (State.finishEdge
      { s with inFlight := s.inFlight ++ [transact s.cfg s.command s.draw], draw := s.draw + 1 })) ∧
  ∀ (c : Config) (m : Command c) (d d' : Nat),
    (decode m.h = .ok .dec → fIsNaN (decodedValue c d m.a) = false) → transact c m d = transact c m d'

/-- R200, with `rsp_valid` as it is at the coming edge. A response that is up and not taken is up after the edge too, unchanged, whatever
command the edge accepts: first for a command in flight, then for one accepted at this very edge with none before it. The
response of a command that is on offer and not accepted (a combinational unit's) is the same at the next edge if it is up
there, the command held as R202 asks. And what is delivered is what stands on the ports, exactly where `rsp_valid` and
`rsp_ready` are 1. Not R200's words but the model's choice are: that a response of an accepted command does not fall again
(notes/assumptions/14.md); that a response up at an edge with `rst = 1` is delivered there (notes/assumptions/7.md); that the
response of a command not accepted is up neither there nor where `rsp_ready = 1` (notes/assumptions/4.md); and the draw of
the free NaN (notes/assumptions/2.md). -/
def Obligations.ResponseStaysUntilTaken : Prop :=
  (∀ (s : State) (p : Response s.cfg) (rest : List (Response s.cfg)),
    s.inFlight = p :: rest → s.presents = true → s.edge.rspReady = false → s.edge.rst = false →
    s.ports = some p ∧ ∃ (more : List (Response s.cfg)) (d : Nat),
      step s = .next ⟨s.cfg, s.host.tail, p :: (rest ++ more), true, s.received, d⟩) ∧
  (∀ s : State, s.inFlight = [] → s.rspValid = false → s.presents = true → s.edge.rspReady = false → s.accepts = true →
    s.ports = some (transact s.cfg s.command s.draw) ∧
    step s = .next ⟨s.cfg, s.host.tail, [transact s.cfg s.command s.draw], true, s.received, s.draw + 1⟩) ∧
  (∀ s : State, s.inFlight = [] → s.rspValid = false → s.presents = true → s.accepts = false →
    s.edge.rspReady = false ∧ s.ports = some (transact s.cfg s.command s.draw) ∧
    step s = .next ⟨s.cfg, s.host.tail, [], false, s.received, s.draw⟩ ∧
    ∀ (e : Edge s.cfg) (es : List (Edge s.cfg)), s.host.tail = e :: es → e.cmd = s.command →
      State.presents ⟨s.cfg, e :: es, [], false, s.received, s.draw⟩ = true →
      State.ports ⟨s.cfg, e :: es, [], false, s.received, s.draw⟩ = s.ports) ∧
  (∀ s : State, (s.rspValid = true → s.inFlight ≠ []) →
    ∃ (inF : List (Response s.cfg)) (v : Bool) (d : Nat),
      step s = .next ⟨s.cfg, s.host.tail, inF, v,
        if s.presents && s.edge.rspReady then s.received ++ s.ports.toList else s.received, d⟩)

/-- R46 (a), R201: at an edge without reset, what the host has received and what is in flight together grow by the response of the command
accepted there, at the end, or stay as they are. So over any run without reset they are in the end what there was before and
one response for each command accepted, in the order of acceptance. That the index of the free NaN is the count of accepted
commands, `s.draw + k`, is the model's choice (notes/assumptions/2.md). -/
def Obligations.RunAnswersAcceptedCommandsInOrder : Prop :=
  (∀ s : State, s.edge.rst = false →
    ∃ (inF : List (Response s.cfg)) (v : Bool) (got : List (Response s.cfg)),
      step s = .next ⟨s.cfg, s.host.tail, inF, v, got, if s.accepts then s.draw + 1 else s.draw⟩ ∧
      got ++ inF = s.received ++ s.inFlight ++ (if s.accepts then [transact s.cfg s.command s.draw] else [])) ∧
  ∀ s : State, (∀ e ∈ s.host, e.rst = false) →
    ∃ (inF : List (Response s.cfg)) (v : Bool) (got : List (Response s.cfg)) (d : Nat),
      Host.Core.run Sys2Proof.core s.host.length s = .next ⟨s.cfg, [], inF, v, got, d⟩ ∧
      got ++ inF = s.received ++ s.inFlight ++
        (acceptedCommands s.host).mapIdx (fun k m => transact s.cfg m (s.draw + k))

/-- R201, R210: when at every edge the oldest command is done and the host takes the response, everything in flight has been
delivered, in order, after as many edges as there are responses. And R200's `LAT = 0`: with nothing in flight, a unit that is
always done and ready exactly when the host is has `rsp_valid` tied to `cmd_valid` and `cmd_ready` to `rsp_ready`, shows the
response of the command on offer, and delivers it at the edge that accepts it, leaving nothing in flight. The draw of its free
NaN is the model's choice (notes/assumptions/2.md). -/
def Obligations.EverythingInFlightIsDelivered : Prop :=
  (∀ s : State, (∀ e ∈ s.host, e.rst = false ∧ e.cmdValid = false ∧ e.rspReady = true ∧ e.unitDone = true) →
    s.inFlight.length ≤ s.host.length →
    ∃ v : Bool, Host.Core.run Sys2Proof.core s.host.length s =
      .next ⟨s.cfg, [], [], v, s.received ++ s.inFlight, s.draw⟩) ∧
  ∀ s : State, s.inFlight = [] → s.rspValid = false → s.edge.rst = false → s.edge.unitDone = true →
    s.edge.unitReady = s.edge.rspReady →
    s.presents = s.edge.cmdValid ∧ s.cmdReady = s.edge.rspReady ∧
    s.ports = (if s.edge.cmdValid then some (transact s.cfg s.command s.draw) else none) ∧
    step s = .next ⟨s.cfg, s.host.tail, [], false,
      s.received ++ (if s.accepts then [transact s.cfg s.command s.draw] else []), if s.accepts then s.draw + 1 else s.draw⟩

/-- R196: the invariant holds at reset, of any instance. -/
def Obligations.ResetMeetsInvariant : Prop := SoundState State.reset ∧ ∀ c : Config, SoundState (State.resetOf c)

/-- R36, R174, R177: every step keeps the invariant: a response with `INV` has all else zero, `OOR_I` never comes with `OOR_X` or `OOR_M`,
one of `R` and `Y` is zero. Its last clause, that the model's record `rspValid` of a raised `rsp_valid` is set only over a
response in flight, is the model's choice (notes/assumptions/4.md and 14.md): a combinational unit raises `rsp_valid` for a
command not accepted, which `State.presents` says and `rspValid` does not record. -/
def Obligations.EveryStepKeepsInvariant : Prop :=
  ∀ s t : State, SoundState s → step s = .next t → SoundState t

/-! ### Operands and results that a command does not use -/

/-- R36, R59: the response does not depend on a port, or on the bits of `X`, that the command does not read. -/
def Obligations.UnusedInputsAreIgnored : Prop :=
  ∀ (c : Config) (i : Instr) (m m' : Command c) (d : Nat),
    (readsA i = true → m.a = m'.a) → (readsB i = true → m.b = m'.b) →
    m.x.setWidth (readsX c i) = m'.x.setWidth (readsX c i) →
    response c i m d = response c i m' d

/-- R36: a command whose result is a scalar drives `R` to zero, any other drives `Y` to zero; under `binary32` the high
half of DEC's `Y` is zero. -/
def Obligations.UnusedOutputsAreZero : Prop :=
  ∀ (c : Config) (i : Instr) (m : Command c) (d : Nat),
    (namesScalar i = true → (response c i m d).r = 0) ∧ (namesScalar i = false → (response c i m d).y = 0) ∧
    (c.nf = .binary32 → (response c .dec m d).y.toNat < 2 ^ 32)

/-- R175: the blank cells of its table. -/
def Obligations.StatusBitsByCommand : Prop :=
  ∀ (c : Config) (i : Instr) (m : Command c) (d : Nat),
    ((response c i m d).oorX = true → i = .enc ∨ i = .mul ∨ i = .rcpa ∨ i = .diva) ∧
    ((response c i m d).oorM = true → i = .enc ∨ i = .add ∨ i = .sub ∨ i = .mul ∨ i = .diva) ∧
    ((response c i m d).oorI = true → ∃ n, i = .u2b n ∨ i = .s2b n) ∧
    ((response c i m d).inv = true → i.wellFormed = false ∨ i = .dexp ∨ i = .enc)

/-! ### BitCodec -/

/-- R84: B2U.N zero-extends `X[N-1:0]` for `1 ≤ N ≤ 64` and is invalid for every other `N`. -/
def Obligations.B2uResult : Prop :=
  (∀ h : Header, opField h = 1#4 → decode h = .ok (.b2u (nField h))) ∧
  ∀ (n : WidthField) (s : State), Answers (.b2u n) s
    (if 1 ≤ n.toNat ∧ n.toNat ≤ 64 then ⟨0, (s.portX.setWidth n.toNat).setWidth 64, 0b0000#4⟩ else ⟨0, 0, 0b1000#4⟩)

/-- R85: B2S.N sign-extends `X[N-1:0]` for `2 ≤ N ≤ 64` and is invalid for every other `N`. -/
def Obligations.B2sResult : Prop :=
  (∀ h : Header, opField h = 2#4 → decode h = .ok (.b2s (nField h))) ∧
  ∀ (n : WidthField) (s : State), Answers (.b2s n) s
    (if 2 ≤ n.toNat ∧ n.toNat ≤ 64 then ⟨0, (s.portX.setWidth n.toNat).signExtend 64, 0b0000#4⟩ else ⟨0, 0, 0b1000#4⟩)

/-- R86: U2B.N gives the low `N` bits of `X`, with `OOR_I` exactly when `uint(X)` does not fit them. -/
def Obligations.U2bResult : Prop :=
  (∀ h : Header, opField h = 3#4 → decode h = .ok (.u2b (nField h))) ∧
  ∀ (n : WidthField) (s : State), Answers (.u2b n) s
    (if 1 ≤ n.toNat ∧ n.toNat ≤ 64 then
      ⟨0, (s.portX.setWidth n.toNat).setWidth 64, if 2 ^ n.toNat ≤ s.portX.toNat then 0b0100#4 else 0b0000#4⟩
    else ⟨0, 0, 0b1000#4⟩)

/-- R87: S2B.N gives the low `N` bits of `X`, with `OOR_I` exactly when `sint(X)` is outside the signed range of `N` bits. -/
def Obligations.S2bResult : Prop :=
  (∀ h : Header, opField h = 4#4 → decode h = .ok (.s2b (nField h))) ∧
  ∀ (n : WidthField) (s : State), Answers (.s2b n) s
    (if 2 ≤ n.toNat ∧ n.toNat ≤ 64 then
      ⟨0, (s.portX.setWidth n.toNat).setWidth 64,
        if s.portX.toInt < -2 ^ (n.toNat - 1) ∨ 2 ^ (n.toNat - 1) - 1 < s.portX.toInt then 0b0100#4 else 0b0000#4⟩
    else ⟨0, 0, 0b1000#4⟩)

/-- R88: an integer that fits a length comes back from the sequence it is written to, at any length; and in commands, B2U.N of the `Y`
of U2B.N gives the operand back, both statuses 0. -/
def Obligations.UnsignedRoundTrip : Prop :=
  (∀ v n : Nat, v < 2 ^ n → bitsToUnsigned (unsignedToBits v n).1 = v) ∧
  ∀ (n : WidthField) (s : State), 1 ≤ n.toNat → n.toNat ≤ 64 → s.portX.toNat < 2 ^ n.toNat →
    ∃ y : Scalar, Answers (.u2b n) s ⟨0, y, 0⟩ ∧
      ∀ t : State, t.portX = y → Answers (.b2u n) t ⟨0, s.portX, 0⟩

/-- R89: the same for signed integers, and in commands for B2S.N of the `Y` of S2B.N. -/
def Obligations.SignedRoundTrip : Prop :=
  (∀ (v : Int) (n : Nat), 1 < n → -2 ^ (n - 1) ≤ v → v ≤ 2 ^ (n - 1) - 1 → bitsToSigned (signedToBits v n).1 = v) ∧
  ∀ (n : WidthField) (s : State), 2 ≤ n.toNat → n.toNat ≤ 64 →
    -2 ^ (n.toNat - 1) ≤ s.portX.toInt → s.portX.toInt ≤ 2 ^ (n.toNat - 1) - 1 →
    ∃ y : Scalar, Answers (.s2b n) s ⟨0, y, 0⟩ ∧
      ∀ t : State, t.portX = y → Answers (.b2s n) t ⟨0, s.portX, 0⟩

/-- R90: writing what was read from a sequence gives that sequence, without a flag; reading what was written gives the value
wrapped. -/
def Obligations.SequenceRoundTrips : Prop :=
  (∀ q : BitSeq, unsignedToBits (bitsToUnsigned q) q.length = (q, false)) ∧
  (∀ q : BitSeq, 1 < q.length → signedToBits (bitsToSigned q) q.length = (q, false)) ∧
  (∀ v n : Nat, bitsToUnsigned (unsignedToBits v n).1 = v % 2 ^ n) ∧
  (∀ (v : Int) (n : Nat), 1 < n →
    bitsToSigned (signedToBits v n).1 = (v + 2 ^ (n - 1)) % 2 ^ n - 2 ^ (n - 1))

/-! ### Native floats and DecimalScale -/

/-- R100, R101 (IEEE 754's layouts, notes/assumptions/11.md): an encoding stands for the value that its sign, exponent field and fraction
say; `F_of_bits` and `F_bits` are inverse, on NaNs too; and `F_neg` and `F_abs` flip and clear the sign bit of every encoding. -/
def Obligations.NativeEncodingRoundTrip : Prop :=
  ∀ f : NF,
    (∀ b : BitVec f.width, Encodes f b.msb (b.extractLsb' (fractionWidth f) (exponentWidth f)).toNat
      (b.extractLsb' 0 (fractionWidth f)).toNat (fOfBits f b)) ∧
    (∀ b : BitVec f.width, fBits f (fOfBits f b) = b) ∧
    (∀ v : Native, fCanonical f v → fOfBits f (fBits f v) = v) ∧
    ∀ b : BitVec f.width, fBits f (fNeg (fOfBits f b)) = b ^^^ BitVec.twoPow f.width (f.width - 1) ∧
      fBits f (fAbs (fOfBits f b)) = b &&& ~~~BitVec.twoPow f.width (f.width - 1)

/-- R100: the comparisons of finite values are those of the rationals they stand for, an infinity is beyond every finite value, with a NaN
both comparisons are false; and `F_trunc` is the floor of every finite value that is not negative, `-0.0` among them. -/
def Obligations.NativeComparisonIsExact : Prop :=
  (∀ (s t : Bool) (m n : Nat) (e g : Int),
    (fLt (.fin s m e) (.fin t n g) = true ↔ realValue s m e < realValue t n g) ∧
    (fGe (.fin s m e) (.fin t n g) = true ↔ realValue t n g ≤ realValue s m e) ∧
    fLt (.inf s) (.fin t n g) = s ∧ fGe (.inf s) (.fin t n g) = !s ∧
    fLt (.fin s m e) (.inf t) = !t ∧ fGe (.fin s m e) (.inf t) = t ∧
    fLt (.inf s) (.inf t) = (s && !t) ∧ fGe (.inf s) (.inf t) = (!s || t)) ∧
  (∀ u v : Native, fIsNaN u = true ∨ fIsNaN v = true → fLt u v = false ∧ fGe u v = false) ∧
  ∀ (s : Bool) (m : Nat) (e : Int), 0 ≤ realValue s m e → (fTrunc (.fin s m e) : ℤ) = ⌊realValue s m e⌋

/-- R100, R101: of finite operands, multiplication, division and the conversion of an integer are rounded to nearest, ties to even, with the
sign that IEEE 754 gives. The special operands have the standard's results, and the NaN that an operation makes can be every
NaN of the format (which one is the free value of notes/assumptions/2.md). -/
def Obligations.NativeArithmeticRoundsToNearestEven : Prop :=
  (∀ (a : Arith) (s t : Bool) (m n : Nat) (e g : Int),
    (RoundsTo a.nf (realValue s m e * realValue t n g) (fMul a (.fin s m e) (.fin t n g)) ∧
      signOf (fMul a (.fin s m e) (.fin t n g)) = (s ^^ t)) ∧
    (n ≠ 0 → RoundsTo a.nf (realValue s m e / realValue t n g) (fDiv a (.fin s m e) (.fin t n g)) ∧
      signOf (fDiv a (.fin s m e) (.fin t n g)) = (s ^^ t)) ∧
    RoundsTo a.nf m (fFromUnsigned a.nf m) ∧ signOf (fFromUnsigned a.nf m) = false) ∧
  (∀ (a : Arith) (s t : Bool) (n : Nat) (g : Int),
    fMul a (.inf s) (.inf t) = .inf (s ^^ t) ∧ fDiv a (.inf s) (.fin t n g) = .inf (s ^^ t) ∧
    fIsZero (fDiv a (.fin t n g) (.inf s)) = true ∧ signOf (fDiv a (.fin t n g) (.inf s)) = (t ^^ s) ∧
    (n ≠ 0 → fMul a (.inf s) (.fin t n g) = .inf (s ^^ t) ∧ fMul a (.fin t n g) (.inf s) = .inf (t ^^ s) ∧
      ∀ h, fDiv a (.fin t n g) (.fin s 0 h) = .inf (t ^^ s))) ∧
  (∀ (a : Arith) (u v : Native),
    fIsNaN u = true ∨ fIsNaN v = true ∨ (fIsInf u = true ∧ fIsZero v = true) ∨ (fIsZero u = true ∧ fIsInf v = true) →
    fMul a u v = madeNaN a) ∧
  (∀ (a : Arith) (u v : Native),
    fIsNaN u = true ∨ fIsNaN v = true ∨ (fIsInf u = true ∧ fIsInf v = true) ∨ (fIsZero u = true ∧ fIsZero v = true) →
    fDiv a u v = madeNaN a) ∧
  ∀ (f : NF) (s : Bool) (frac : Nat), fCanonical f (.nan s frac) → ∃ free, madeNaN ⟨f, free⟩ = .nan s frac

/-- R105, R106 (b), R211 (b): the cap on the multiplications of `P10F` changes no result; from the cap on the result is infinity,
and from its negative down `+0.0`. -/
def Obligations.PowerOfTenCapIsHarmless : Prop :=
  ∀ (a : Arith) (k : Int), powerOfTen a k = powerOfTenUncapped a k ∧
    ((tenCap a.nf : Int) ≤ k → powerOfTen a k = .inf false) ∧
    (k ≤ -(tenCap a.nf : Int) → powerOfTen a k = fZero a.nf false)

/-- R106 (a): `P10F(k)` is exactly `10 ^ k` for `0 ≤ k ≤ 22` in `binary64` and for `0 ≤ k ≤ 10` in `binary32`. -/
def Obligations.SmallPowersOfTenAreExact : Prop :=
  ∀ (a : Arith) (k : Nat), k ≤ (match a.nf with | .binary32 => 10 | .binary64 => 22) →
    ∃ m e, powerOfTen a k = .fin false m e ∧ realValue false m e = 10 ^ k

/-- R102, R103, R205, R211 (a): on every finite value that is not zero the loops of `DEXPF` end by their tests, never by their fuel. At most
one of them runs; the exponent is the number of divisions made, each of a value of at least ten, or minus the number of
multiplications made, each of a value below one; and the value left is finite, at least one and below ten. -/
def Obligations.DecimalScaleEndsBetweenOneAndTen : Prop :=
  ∀ (a : Arith) (b : BitVec a.nf.width), fIsFinite (fOfBits a.nf b) = true → fIsZero (fOfBits a.nf b) = false →
    let v := fAbs (fOfBits a.nf b)
    ∃ down up : Nat, LoopsRun a v down up ∧ (down = 0 ∨ up = 0) ∧
      decimalExponent a v = down - up ∧ (decimalScale a v).1 = multiplied a up (divided a down v) ∧
      fLt (decimalScale a v).1 (fOne a.nf) = false ∧ fGe (decimalScale a v).1 (fTen a.nf) = false ∧
      fIsFinite (decimalScale a v).1 = true

/-- R104 (a), (b): `DEXPF` lies in `-324 .. 308` for `binary64` and in `-45 .. 38` for `binary32`; its loops as R103 says them run at
most 308 and 324 times (38 and 45). -/
def Obligations.DecimalExponentRange : Prop :=
  ∀ (a : Arith) (b : BitVec a.nf.width), fIsFinite (fOfBits a.nf b) = true →
    let v := fAbs (fOfBits a.nf b)
    let most : Nat := match a.nf with | .binary32 => 38 | .binary64 => 308
    let least : Nat := match a.nf with | .binary32 => 45 | .binary64 => 324
    decimalExponent a v ≤ most ∧ -(least : Int) ≤ decimalExponent a v ∧
    (fIsZero v = false → ∀ down up : Nat, LoopsRun a v down up → down ≤ most ∧ up ≤ least)

/-- R110: DEXP refuses a NaN or an infinity, and otherwise gives `DEXPF` of the magnitude, as R103's loops count it, as a 64-bit signed
integer that holds it whole. No free value enters. -/
def Obligations.DexpResult : Prop :=
  (∀ h : Header, opField h = 5#4 → decode h = .ok .dexp) ∧
  ∀ s : State, let v := fOfBits s.cfg.nf (s.portX.setWidth s.cfg.nf.width)
    (fIsFinite v = false → Answers .dexp s ⟨0, 0, 0b1000#4⟩) ∧
    (fIsFinite v = true → ∃ y : Scalar, Answers .dexp s ⟨0, y, 0b0000#4⟩ ∧
      (∀ free, IsDecimalExponent ⟨s.cfg.nf, free⟩ (fAbs v) y.toInt) ∧ (fIsZero v = true → y = 0))

/-! ### CustomFloat -/

/-- R120: ZERO gives the all-zero word. -/
def Obligations.ZeroResult : Prop :=
  (∀ h : Header, opField h = 0#4 → decode h = .ok .zero) ∧ ∀ s : State, Answers .zero s ⟨0, 0, 0b0000#4⟩

/-- R122: ENC refuses a NaN or an infinity, gives `CF_ZERO` for a zero of either sign, refuses a magnitude whose scaled value is
not finite, and otherwise packs sign, decimal exponent (as R103's loops count it) and truncated mantissa, each wrap flagged.
No free value enters. -/
def Obligations.EncResult : Prop :=
  (∀ h : Header, opField h = 6#4 → decode h = .ok .enc) ∧
  ∀ (s : State) (free : BitVec 64), let c := s.cfg
    let a : Arith := ⟨c.nf, free⟩
    let v := fOfBits c.nf (s.portX.setWidth c.nf.width)
    (fIsFinite v = false → Answers .enc s ⟨0, 0, 0b1000#4⟩) ∧
    (fIsZero v = true → Answers .enc s ⟨0, 0, 0b0000#4⟩) ∧
    (fIsFinite v = true → fIsZero v = false → ∃ e : Int, IsDecimalExponent a (fAbs v) e ∧
      let t := fMul a (fDiv a (fAbs v) (powerOfTenUncapped a e)) (powerOfTenUncapped a c.D)
      (fIsFinite t = false → Answers .enc s ⟨0, 0, 0b1000#4⟩) ∧
      (fIsFinite t = true → Answers .enc s
        ⟨cfWord (signOf v) (BitVec.ofInt c.E e) (BitVec.ofNat c.M (fTrunc t)), 0,
          (if e < c.EMIN ∨ c.EMAX < e then 0b0001#4 else 0b0000#4) |||
          (if c.MMAX < fTrunc t then 0b0010#4 else 0b0000#4)⟩))

/-- R123 (e): of two inputs that differ only in sign, both valid and not zero, the encodings differ only in the sign bit. -/
def Obligations.EncSignSymmetry : Prop :=
  ∀ (c : Config) (m m' : Command c) (d d' : Nat),
    fIsZero (floatOperand c m.x) = false → floatOperand c m'.x = fNeg (floatOperand c m.x) →
    (response c .enc m d).inv = false →
    (response c .enc m' d').r = flipSign (response c .enc m d).r ∧
    (response c .enc m' d').st = (response c .enc m d).st

/-- R124: DEC computes the mantissa over the multiplier, times the power of ten, in native arithmetic, with the word's sign
applied last, and sets no status bit. Where that is a NaN, which one is left open by R126: that it is the one made from
`Config.freeNaN s.draw`, a free value drawn once for each accepted command, is the model's choice (notes/assumptions/2.md). -/
def Obligations.DecResult : Prop :=
  (∀ h : Header, opField h = 7#4 → decode h = .ok .dec) ∧
  ∀ s : State, let c := s.cfg
    let a : Arith := ⟨c.nf, Config.freeNaN s.draw⟩
    let mf := fDiv a (fFromUnsigned c.nf (mantissa s.portA)) (powerOfTenUncapped a c.D)
    let mag := fMul a (powerOfTenUncapped a (exponent s.portA)) mf
    Answers .dec s ⟨0, (fBits c.nf (if negative s.portA then fNeg mag else mag)).setWidth 64, 0b0000#4⟩

/-- R125, R126: what DEC computes is a NaN exactly when the power of ten is infinite and the mantissa zero; then `Y` holds the encoding
of a NaN, and the status is still 0. -/
def Obligations.DecGivesNaNOnInfinityTimesZero : Prop :=
  ∀ s : State,
    (fIsNaN (decodedValue s.cfg s.draw s.portA) = true ↔
      (tenCap s.cfg.nf : Int) ≤ exponent s.portA ∧ mantissa s.portA = 0) ∧
    ((tenCap s.cfg.nf : Int) ≤ exponent s.portA → mantissa s.portA = 0 →
      ∃ y : Scalar, Answers .dec s ⟨0, y, 0b0000#4⟩ ∧ fIsNaN (fOfBits s.cfg.nf (y.setWidth s.cfg.nf.width)) = true)

/-- R128: DEC of a negated word is the negation of DEC of the word, bit for bit: for the same draw always, and for different ones unless
it is a NaN. -/
def Obligations.DecOfNegatedWord : Prop :=
  ∀ (c : Config) (w : BitVec c.W) (d d' : Nat),
    decodedValue c d (flipSign w) = fNeg (decodedValue c d w) ∧
    (d' = d ∨ fIsNaN (decodedValue c d w) = false →
      (decResponse c d' (flipSign w)).y = (decResponse c d w).y ^^^ (BitVec.twoPow 64 (c.nf.width - 1)))

/-- R125 (a), R23: `CF_ZERO` decodes to `+0.0`, and its negation to `-0.0`. -/
def Obligations.DecOfZeroWords : Prop :=
  ∀ s : State,
    (s.portA = 0 → Answers .dec s ⟨0, 0, 0b0000#4⟩) ∧
    (s.portA = flipSign (0 : BitVec s.cfg.W) → Answers .dec s ⟨0, BitVec.twoPow 64 (s.cfg.nf.width - 1), 0b0000#4⟩)

/-! ### Arithmetic -/

/-- R141: NEG flips the top bit and no other, and is its own inverse. -/
def Obligations.NegResult : Prop :=
  (∀ h : Header, opField h = 8#4 → decode h = .ok .neg) ∧
  (∀ s : State, Answers .neg s ⟨s.portA ^^^ BitVec.twoPow s.cfg.W (s.cfg.W - 1), 0, 0b0000#4⟩) ∧
  ∀ (c : Config) (w : BitVec c.W), (negResponse c (negResponse c w).r).r = w

/-- R142: ADD aligns by the exact power of ten, adds as integers, keeps the larger exponent and packs; only `OOR_M` can be set. -/
def Obligations.AddResult : Prop :=
  (∀ h : Header, opField h = 9#4 → decode h = .ok .add) ∧
  ∀ s : State, Answers .add s (sumResponse s.cfg (parts s.portA) (parts s.portB))

/-- R143: SUB is ADD with the sign of its second operand flipped. -/
def Obligations.SubResult : Prop :=
  (∀ h : Header, opField h = 10#4 → decode h = .ok .sub) ∧
  ∀ s : State, Answers .sub s
    (sumResponse s.cfg (parts s.portA) ⟨!negative s.portB, exponent s.portB, mantissa s.portB⟩)

/-- R144: MUL adds the exponents, multiplies the mantissas and divides by the integer multiplier, and packs. -/
def Obligations.MulResult : Prop :=
  (∀ h : Header, opField h = 11#4 → decode h = .ok .mul) ∧
  ∀ s : State, let c := s.cfg
    let er := exponent s.portA + exponent s.portB
    let mr := mantissa s.portA * mantissa s.portB / c.MM
    Answers .mul s
      ⟨cfWord (negative s.portA ^^ negative s.portB) (BitVec.ofInt c.E er) (BitVec.ofNat c.M mr), 0,
        (if er < c.EMIN ∨ c.EMAX < er then 0b0001#4 else 0b0000#4) |||
        (if c.MMAX < mr then 0b0010#4 else 0b0000#4)⟩

/-- R145: RCPA negates the exponent and keeps sign and mantissa; at `EMIN` the word comes back unchanged with `OOR_X`. -/
def Obligations.RcpaResult : Prop :=
  (∀ h : Header, opField h = 12#4 → decode h = .ok .rcpa) ∧
  ∀ s : State, let c := s.cfg
    Answers .rcpa s
      ⟨cfWord (negative s.portA) (-(s.portA.extractLsb' c.M c.E)) (s.portA.extractLsb' 0 c.M), 0,
        if exponent s.portA = c.EMIN then 0b0001#4 else 0b0000#4⟩ ∧
    (exponent s.portA = c.EMIN → Answers .rcpa s ⟨s.portA, 0, 0b0001#4⟩)

/-- R146: DIVA multiplies by the wrapped reciprocal of its second operand; a wrap in either step is flagged. -/
def Obligations.DivaResult : Prop :=
  (∀ h : Header, opField h = 13#4 → decode h = .ok .diva) ∧
  ∀ s : State, let c := s.cfg
    let er := exponent s.portA + (-(s.portB.extractLsb' c.M c.E)).toInt
    let mr := mantissa s.portA * mantissa s.portB / c.MM
    Answers .diva s
      ⟨cfWord (negative s.portA ^^ negative s.portB) (BitVec.ofInt c.E er) (BitVec.ofNat c.M mr), 0,
        (if exponent s.portB = c.EMIN ∨ er < c.EMIN ∨ c.EMAX < er then 0b0001#4 else 0b0000#4) |||
        (if c.MMAX < mr then 0b0010#4 else 0b0000#4)⟩

/-- R147: SUB is NEG then ADD, and DIVA is RCPA then MUL, the first result fed to the second command and the statuses ORed. -/
def Obligations.ComposedCommandsAreTheirSequences : Prop :=
  ∀ (c : Config) (m : Command c) (d d₁ d₂ : Nat) (h₁ h₂ : Header) (b₁ b₂ : BitVec c.W) (x₁ x₂ : Scalar),
    (let p := response c .neg ⟨h₁, m.b, b₁, x₁⟩ d₁
     let q := response c .add ⟨h₂, m.a, p.r, x₂⟩ d₂
     response c .sub m d = ⟨q.r, q.y, p.st ||| q.st⟩) ∧
    (let p := response c .rcpa ⟨h₁, m.b, b₂, x₁⟩ d₁
     let q := response c .mul ⟨h₂, m.a, p.r, x₂⟩ d₂
     response c .diva m d = ⟨q.r, q.y, p.st ||| q.st⟩)

/-- R149 (j), R151 (h): ADD and MUL are commutative, status included. -/
def Obligations.AddAndMulCommute : Prop :=
  ∀ (c : Config) (a b : BitVec c.W),
    addResponse c a b = addResponse c b a ∧ mulResponse c a b = mulResponse c b a

/-- R149 (b), R211 (c): with exponents more than `D` apart, ADD gives the operand with the larger one, a zero mantissa with sign 0. -/
def Obligations.AddDropsFarSmallerOperand : Prop :=
  ∀ s : State, let c := s.cfg
    ((c.D : Int) < exponent s.portA - exponent s.portB → Answers .add s
      ⟨cfWord (negative s.portA && decide (mantissa s.portA ≠ 0)) (s.portA.extractLsb' c.M c.E) (s.portA.extractLsb' 0 c.M), 0,
        0b0000#4⟩) ∧
    ((c.D : Int) < exponent s.portB - exponent s.portA → Answers .add s
      ⟨cfWord (negative s.portB && decide (mantissa s.portB ≠ 0)) (s.portB.extractLsb' c.M c.E) (s.portB.extractLsb' 0 c.M), 0,
        0b0000#4⟩)

/-- R142, R153: where ADD sets no flag, its result holds the signed sum of the aligned mantissas exactly, at the larger exponent. -/
def Obligations.AddWithoutFlagIsExact : Prop :=
  ∀ (c : Config) (a b : BitVec c.W), (addResponse c a b).st = 0 →
    (if negative (addResponse c a b).r then -(mantissa (addResponse c a b).r : Int) else mantissa (addResponse c a b).r) =
      exactSum (parts a) (parts b) ∧
    exponent (addResponse c a b).r = max (exponent a) (exponent b)

/-- R33, R142, R149 (c): where the exponents are equal and ADD sets no flag, ideal values add. -/
def Obligations.AddOfEqualExponentsAddsIdealValues : Prop :=
  ∀ (c : Config) (a b : BitVec c.W), exponent a = exponent b → (addResponse c a b).st = 0 →
    idealValue (addResponse c a b).r = idealValue a + idealValue b

/-- R33, R144, R153: where MUL sets no flag its ideal value is the product of the operands' at most a last place off, toward zero,
and is the product when the multiplier divides the product of the mantissas. -/
def Obligations.MulWithoutFlagMultipliesIdealValues : Prop :=
  ∀ (c : Config) (a b : BitVec c.W), (mulResponse c a b).st = 0 →
    |idealValue (mulResponse c a b).r| ≤ |idealValue a * idealValue b| ∧
    |idealValue a * idealValue b| - |idealValue (mulResponse c a b).r| < 10 ^ (exponent a + exponent b) / (c.MM : ℚ) ∧
    (c.MM ∣ mantissa a * mantissa b → idealValue (mulResponse c a b).r = idealValue a * idealValue b)

/-- R33, R141, R152 (a): NEG negates the ideal value; RCPA without a flag divides it by `10 ^ (2 e)`. -/
def Obligations.NegAndRcpaOnIdealValues : Prop :=
  ∀ (c : Config) (w : BitVec c.W),
    idealValue (negResponse c w).r = -idealValue w ∧
    ((rcpaResponse c w).st = 0 → idealValue (rcpaResponse c w).r = idealValue w / 10 ^ (2 * exponent w))

/-- R151 (g): `cf(0, 0, MM)` is the identity of MUL, on every word, with status 0. -/
def Obligations.MulByOneIsIdentity : Prop :=
  ∀ s : State, s.portB = cfWord false 0 (BitVec.ofNat s.cfg.M s.cfg.MM) → Answers .mul s ⟨s.portA, 0, 0b0000#4⟩

/-- R152 (f): RCPA is its own inverse on every word whose exponent is not `EMIN`. -/
def Obligations.RcpaTwiceIsIdentity : Prop :=
  ∀ (c : Config) (w : BitVec c.W), exponent w ≠ c.EMIN →
    (rcpaResponse c w).st = 0 ∧ rcpaResponse c (rcpaResponse c w).r = ⟨w, 0, 0⟩

/-- R152 (d): there is no division by zero: `DIVA a, CF_ZERO` gives a zero with `a`'s sign and exponent, and no flag. -/
def Obligations.DivaByZeroWord : Prop :=
  ∀ s : State, s.portB = 0 → Answers .diva s
    ⟨cfWord (negative s.portA) (s.portA.extractLsb' s.cfg.M s.cfg.E) 0, 0, 0b0000#4⟩
end

