-- ==== Sys2Proof/Laws/BitSeq.lean ====
section
/-! SUPPORT. The four conversions of bit sequences, each said once in terms of Lean's own readings of a bit vector
(40_bitcodec.md R80 to R83: `B2U(s) = uint(vec(s))`, `B2S(s) = sint(vec(s))`, `U2B` and `S2B` the low bits). -/

namespace Sys2Proof.Machine

@[simp] theorem length_seqOf {n : Nat} (v : BitVec n) : (seqOf v).length = n := by simp [seqOf]

@[simp] theorem length_lowBits (v n : Nat) : (lowBits v n).length = n := by
  induction n with
  | zero => rfl
  | succ n ih => simp [lowBits, ih]

/-- A sequence's value fits its length (R80). -/
theorem bitsToUnsigned_lt (s : BitSeq) : bitsToUnsigned s < 2 ^ s.length := by
  induction s with
  | nil => simp [bitsToUnsigned]
  | cons b rest ih =>
    have : b.toNat ≤ 1 := Bool.toNat_le b
    simp only [bitsToUnsigned, List.length_cons, pow_succ]
    nlinarith

/-- Reading back the low bits of a number gives it modulo `2 ^ n` (R82). -/
@[simp] theorem bitsToUnsigned_lowBits (v n : Nat) : bitsToUnsigned (lowBits v n) = v % 2 ^ n := by
  induction n with
  | zero => simp [lowBits, bitsToUnsigned, Nat.mod_one]
  | succ n ih =>
    simp only [lowBits, bitsToUnsigned, length_lowBits, ih]
    rw [Nat.mod_pow_succ, Nat.testBit_eq_decide_div_mod_eq]
    rcases Nat.mod_two_eq_zero_or_one (v / 2 ^ n) with h | h
    · simp [h]
    · simp [h, add_comm]

/-- The sequence of a vector is the low bits of its value (R14). -/
theorem seqOf_eq_lowBits {n : Nat} (v : BitVec n) : seqOf v = lowBits v.toNat n := by
  suffices h : ∀ k ≤ n, (List.range k).map (fun i => v.getLsbD (k - 1 - i)) = lowBits v.toNat k from h n le_rfl
  intro k hk
  induction k with
  | zero => rfl
  | succ k ih =>
    rw [List.range_succ_eq_map, List.map_cons, List.map_map]
    simp only [lowBits, List.cons.injEq]
    refine ⟨by simp [BitVec.getLsbD], ?_⟩
    rw [← ih (by omega)]
    refine List.map_congr_left fun i hi => ?_
    have := List.mem_range.1 hi
    simp only [Function.comp]
    congr 1
    omega

/-- `B2U(seq(v)) = uint(v)` (R80). -/
@[simp] theorem bitsToUnsigned_seqOf {n : Nat} (v : BitVec n) : bitsToUnsigned (seqOf v) = v.toNat := by
  rw [seqOf_eq_lowBits, bitsToUnsigned_lowBits, Nat.mod_eq_of_lt v.isLt]

/-- `B2S` of low bits is the two's-complement reading (R81). -/
theorem bitsToSigned_lowBits (v n : Nat) : bitsToSigned (lowBits v n) = (BitVec.ofNat n v).toInt := by
  cases n with
  | zero => simp [lowBits, bitsToSigned, BitVec.eq_nil (BitVec.ofNat 0 v)]
  | succ n =>
    simp only [lowBits, bitsToSigned, length_lowBits, bitsToUnsigned_lowBits, BitVec.toInt_eq_msb_cond,
      BitVec.msb_eq_decide, BitVec.toNat_ofNat, Nat.testBit_eq_decide_div_mod_eq, Nat.mod_pow_succ]
    have hlt : v % 2 ^ n < 2 ^ n := Nat.mod_lt _ (by positivity)
    rcases Nat.mod_two_eq_zero_or_one (v / 2 ^ n) with h | h
    · simp [h, hlt.not_ge]
    · simp [h, pow_succ]
      ring

/-- `B2S(seq(v)) = sint(v)` (R81). -/
@[simp] theorem bitsToSigned_seqOf {n : Nat} (v : BitVec n) : bitsToSigned (seqOf v) = v.toInt := by
  rw [seqOf_eq_lowBits, bitsToSigned_lowBits, BitVec.ofNat_toNat, BitVec.setWidth_eq]

/-- `vec(seq(v)) = v` (R14). -/
@[simp] theorem vec_seqOf {n : Nat} (v : BitVec n) : vec n (seqOf v) = v := by simp [vec]

/-- `vec(U2B(v, n))` is the low `n` bits of `v` (R82). -/
@[simp] theorem vec_unsignedToBits (v n : Nat) : vec n (unsignedToBits v n).1 = BitVec.ofNat n v := by
  apply BitVec.eq_of_toNat_eq
  simp [vec, unsignedToBits]

/-- `vec(S2B(v, n))` is the low `n` bits of the two's-complement form of `v` (R83). -/
@[simp] theorem vec_signedToBits (v : Int) (n : Nat) : vec n (signedToBits v n).1 = BitVec.ofInt n v := by
  apply BitVec.eq_of_toNat_eq
  have hlt : (v % (2 ^ n : Nat)).toNat < 2 ^ n := by
    have := Int.emod_lt_of_pos v (show (0 : Int) < (2 ^ n : Nat) by positivity)
    omega
  simp only [vec, signedToBits, bitsToUnsigned_lowBits, BitVec.toNat_ofNat, BitVec.toNat_ofInt,
    Nat.mod_eq_of_lt hlt]

end Sys2Proof.Machine
end

