-- ==== Sys2Proof/Laws/NativeFloat.lean ====
section
/-! SUPPORT. What the native-float primitives can answer, said once (41_decimalscale.md R100, R101): the bounds of rounding, and that every
value a primitive gives is in the canonical form of its format. -/

namespace Sys2Proof.Machine

/-- `floorLog2` is the floor of the base-2 logarithm. -/
theorem floorLog2_spec {num den : Nat} (hn : 0 < num) (hd : 0 < den) :
    (2 : ℚ) ^ floorLog2 num den ≤ num / den ∧ (num : ℚ) / den < 2 ^ (floorLog2 num den + 1) := by
  have hdq : (0 : ℚ) < den := by exact_mod_cast hd
  have n1 : (2 : ℚ) ^ num.log2 ≤ num := by exact_mod_cast Nat.log2_self_le hn.ne'
  have n2 : (num : ℚ) < 2 ^ (num.log2 + 1) := by exact_mod_cast Nat.lt_log2_self
  have d1 : (2 : ℚ) ^ den.log2 ≤ den := by exact_mod_cast Nat.log2_self_le hd.ne'
  have d2 : (den : ℚ) < 2 ^ (den.log2 + 1) := by exact_mod_cast Nat.lt_log2_self
  set l : ℤ := (num.log2 : ℤ) - den.log2 with hl
  have test : den * 2 ^ l.toNat ≤ num * 2 ^ (-l).toNat ↔ (2 : ℚ) ^ l ≤ num / den := by
    rw [le_div_iff₀ hdq, ← Nat.cast_le (α := ℚ)]
    push_cast
    rcases le_total 0 l with h | h
    · obtain ⟨k, hk⟩ := Int.eq_ofNat_of_zero_le h
      simp [hk, mul_comm]
    · obtain ⟨k, hk⟩ := Int.eq_ofNat_of_zero_le (neg_nonneg.2 h)
      have hk' : l = -(k : ℤ) := by omega
      simp only [hk', neg_neg, Int.toNat_natCast, Int.toNat_neg_natCast, pow_zero, mul_one, zpow_neg, zpow_natCast]
      rw [inv_mul_le_iff₀ (by positivity)]
      rw [mul_comm]
  have upper : (num : ℚ) / den < 2 ^ (l + 1) := by
    rw [div_lt_iff₀ hdq]
    calc (num : ℚ) < 2 ^ (num.log2 + 1) := n2
      _ = 2 ^ (l + 1) * 2 ^ den.log2 := by
        rw [← zpow_natCast, ← zpow_natCast, ← zpow_add₀ (by norm_num)]
        congr 1
        push_cast
        omega
      _ ≤ 2 ^ (l + 1) * den := by gcongr
  have lower : (2 : ℚ) ^ (l - 1) ≤ num / den := by
    rw [le_div_iff₀ hdq]
    calc (2 : ℚ) ^ (l - 1) * den ≤ 2 ^ (l - 1) * 2 ^ (den.log2 + 1) := by gcongr
      _ = 2 ^ num.log2 := by
        rw [← zpow_natCast, ← zpow_natCast, ← zpow_add₀ (by norm_num)]
        congr 1
        push_cast
        omega
      _ ≤ num := n1
  unfold floorLog2
  simp only [← hl]
  split
  · exact ⟨test.1 ‹_›, upper⟩
  · refine ⟨lower, ?_⟩
    rw [sub_add_cancel]
    exact lt_of_not_ge fun h => ‹¬ _› (test.2 h)

/-- Rounding to an integer does not pass an integer bound from above. -/
theorem nearestEven_le {num den b : Nat} (hd : 0 < den) (h : num ≤ den * b) : nearestEven num den ≤ b := by
  have hq := Nat.div_add_mod num den
  have hr := Nat.mod_lt num hd
  have hqb : num / den ≤ b := Nat.div_le_of_le_mul h
  unfold nearestEven
  dsimp only
  rcases hqb.eq_or_lt with he | hlt
  · have : num % den = 0 := by
      rw [he] at hq
      omega
    simp [this, hd, he]
  · split <;> [omega; (split <;> omega)]

/-- Rounding to an integer does not pass an integer bound from below. -/
theorem le_nearestEven {num den b : Nat} (hd : 0 < den) (h : den * b ≤ num) : b ≤ nearestEven num den := by
  have : b ≤ num / den := (Nat.le_div_iff_mul_le hd).2 (by rwa [mul_comm])
  unfold nearestEven
  dsimp only
  split <;> [omega; (split <;> omega)]

/-- The distance of rounding to an integer is at most a half. -/
theorem nearestEven_close (num : Nat) {den : Nat} (hd : 0 < den) :
    |(nearestEven num den : ℚ) - num / den| ≤ 1 / 2 := by
  have hdq : (0 : ℚ) < den := by exact_mod_cast hd
  have hq : (num : ℚ) = den * (num / den : Nat) + (num % den : Nat) := by exact_mod_cast (Nat.div_add_mod num den).symm
  have hr : ((num % den : Nat) : ℚ) < den := by exact_mod_cast Nat.mod_lt num hd
  have h0 : (0 : ℚ) ≤ (num % den : Nat) := by positivity
  have hdiv : (num : ℚ) / den = (num / den : Nat) + (num % den : Nat) / den := by
    rw [hq, add_div, mul_div_cancel_left₀ _ hdq.ne']
  rw [hdiv]
  unfold nearestEven
  dsimp only
  split
  · rename_i h
    have : (2 : ℚ) * (num % den : Nat) < den := by exact_mod_cast h
    rw [abs_le]
    constructor
    · rw [neg_le_iff_add_nonneg]
      have : ((num % den : Nat) : ℚ) / den ≤ 1 / 2 := by rw [div_le_div_iff₀ hdq two_pos]; linarith
      linarith
    · have : 0 ≤ ((num % den : Nat) : ℚ) / den := by positivity
      linarith
  · split
    · rename_i _ h
      have : (den : ℚ) < 2 * (num % den : Nat) := by exact_mod_cast h
      push_cast
      have h1 : 1 / 2 ≤ ((num % den : Nat) : ℚ) / den := by rw [div_le_div_iff₀ two_pos hdq]; linarith
      have h2 : ((num % den : Nat) : ℚ) / den ≤ 1 := by rw [div_le_one hdq]; linarith
      rw [abs_le]
      constructor <;> linarith
    · rename_i h h'
      have he : (den : ℚ) = 2 * (num % den : Nat) := by exact_mod_cast (by omega : den = 2 * (num % den))
      have hhalf : ((num % den : Nat) : ℚ) / den = 1 / 2 := by rw [div_eq_div_iff hdq.ne' two_ne_zero]; linarith
      rw [hhalf]
      rcases Nat.mod_two_eq_zero_or_one (num / den) with h2 | h2 <;> rw [h2] <;> push_cast <;> rw [abs_le] <;>
        constructor <;> linarith

/-- The exponent of the last place that rounding `num / den` chooses, before a carry (R101). -/
def roundingExp (f : NF) (num den : Nat) : Int := max (floorLog2 num den - (precision f - 1 : Nat)) (minExp f)

/-- The integer significand that rounding `num / den` chooses, before a carry (R101). -/
def roundingInt (f : NF) (num den : Nat) : Nat :=
  nearestEven (num * 2 ^ (-roundingExp f num den).toNat) (den * 2 ^ (roundingExp f num den).toNat)

/-- `num / den` in units of the last place. -/
theorem roundingInt_quotient (f : NF) {num den : Nat} (hd : 0 < den) :
    ((num * 2 ^ (-roundingExp f num den).toNat : Nat) : ℚ) / (den * 2 ^ (roundingExp f num den).toNat : Nat) =
      num / den * 2 ^ (-roundingExp f num den) := by
  have hdq : (0 : ℚ) < den := by exact_mod_cast hd
  generalize roundingExp f num den = e
  push_cast
  rcases le_total 0 e with h | h
  · obtain ⟨k, rfl⟩ := Int.eq_ofNat_of_zero_le h
    simp
    field_simp
  · obtain ⟨k, hk⟩ := Int.eq_ofNat_of_zero_le (neg_nonneg.2 h)
    have hk' : e = -(k : ℤ) := by omega
    subst hk'
    simp
    ring

/-- The chosen significand fits the precision, a carry to `2 ^ p` included. -/
theorem roundingInt_le (f : NF) {num den : Nat} (hn : 0 < num) (hd : 0 < den) :
    roundingInt f num den ≤ 2 ^ precision f := by
  have hd' : 0 < den * 2 ^ (roundingExp f num den).toNat := by positivity
  refine nearestEven_le hd' ?_
  have hq := roundingInt_quotient f (num := num) hd
  have hspec := (floorLog2_spec hn hd).2
  rw [div_eq_iff (by exact_mod_cast hd'.ne')] at hq
  rw [← Nat.cast_le (α := ℚ), hq, mul_comm, Nat.cast_mul _ (2 ^ precision f)]
  refine mul_le_mul_of_nonneg_left ?_ (by positivity)
  have hle : floorLog2 num den + 1 ≤ roundingExp f num den + precision f := by
    have : 1 ≤ precision f := by cases f <;> decide
    simp only [roundingExp]
    omega
  calc (num : ℚ) / den * 2 ^ (-roundingExp f num den)
      ≤ 2 ^ (floorLog2 num den + 1) * 2 ^ (-roundingExp f num den) := by gcongr
    _ ≤ 2 ^ (roundingExp f num den + precision f) * 2 ^ (-roundingExp f num den) := by
        gcongr
        norm_num
    _ = (2 ^ precision f : Nat) := by
        rw [← zpow_add₀ (by norm_num)]
        simp

/-- The chosen significand has its leading one unless the exponent is the least. -/
theorem le_roundingInt (f : NF) {num den : Nat} (hn : 0 < num) (hd : 0 < den)
    (he : roundingExp f num den ≠ minExp f) : 2 ^ (precision f - 1) ≤ roundingInt f num den := by
  have hd' : 0 < den * 2 ^ (roundingExp f num den).toNat := by positivity
  refine le_nearestEven hd' ?_
  have hq := roundingInt_quotient f (num := num) hd
  have hspec := (floorLog2_spec hn hd).1
  rw [div_eq_iff (by exact_mod_cast hd'.ne')] at hq
  rw [← Nat.cast_le (α := ℚ), hq, mul_comm (_ / _ * _), Nat.cast_mul _ (2 ^ (precision f - 1))]
  refine mul_le_mul_of_nonneg_left ?_ (by positivity)
  have hle : floorLog2 num den = roundingExp f num den + (precision f - 1 : Nat) := by
    simp only [roundingExp] at he ⊢
    omega
  calc ((2 ^ (precision f - 1) : Nat) : ℚ)
      = 2 ^ floorLog2 num den * 2 ^ (-roundingExp f num den) := by
        rw [← zpow_add₀ (by norm_num), hle]
        simp
    _ ≤ num / den * 2 ^ (-roundingExp f num den) := by gcongr

/-- Everything rounding can answer (R101): a zero for zero; otherwise the chosen significand at the chosen exponent, with a
carry at `2 ^ p`, or an infinity beyond the greatest exponent. -/
theorem fRound_cases (f : NF) (s : Bool) (num den : Nat) :
    (num = 0 ∧ fRound f s num den = fZero f s) ∨
    (num ≠ 0 ∧ roundingInt f num den ≠ 2 ^ precision f ∧ roundingExp f num den ≤ maxExp f ∧
      fRound f s num den = .fin s (roundingInt f num den) (roundingExp f num den)) ∨
    (num ≠ 0 ∧ roundingInt f num den = 2 ^ precision f ∧ roundingExp f num den + 1 ≤ maxExp f ∧
      fRound f s num den = .fin s (2 ^ (precision f - 1)) (roundingExp f num den + 1)) ∨
    (num ≠ 0 ∧ fRound f s num den = .inf s ∧
      (if roundingInt f num den = 2 ^ precision f then maxExp f < roundingExp f num den + 1
        else maxExp f < roundingExp f num den)) := by
  by_cases hn : num = 0
  · exact .inl ⟨hn, by simp [fRound, hn]⟩
  have hr : fRound f s num den =
      if roundingInt f num den = 2 ^ precision f then
        (if roundingExp f num den + 1 ≤ maxExp f then
          Native.fin s (2 ^ (precision f - 1)) (roundingExp f num den + 1) else .inf s)
      else if roundingExp f num den ≤ maxExp f then .fin s (roundingInt f num den) (roundingExp f num den)
      else .inf s := by
    simp only [fRound, if_neg hn]
    rfl
  by_cases hq : roundingInt f num den = 2 ^ precision f
  · by_cases he : roundingExp f num den + 1 ≤ maxExp f
    · exact .inr (.inr (.inl ⟨hn, hq, he, by rw [hr, if_pos hq, if_pos he]⟩))
    · exact .inr (.inr (.inr ⟨hn, by rw [hr, if_pos hq, if_neg he], by rw [if_pos hq]; omega⟩))
  · by_cases he : roundingExp f num den ≤ maxExp f
    · exact .inr (.inl ⟨hn, hq, he, by rw [hr, if_neg hq, if_pos he]⟩)
    · exact .inr (.inr (.inr ⟨hn, by rw [hr, if_neg hq, if_neg he], by rw [if_neg hq]; omega⟩))

theorem fCanonical_fZero (f : NF) (s : Bool) : fCanonical f (fZero f s) := by cases f <;> simp [fZero, fCanonical, precision, minExp, maxExp]

/-- Rounding gives a value of the format. -/
theorem fCanonical_fRound (f : NF) (s : Bool) (num : Nat) {den : Nat} (hd : 0 < den) :
    fCanonical f (fRound f s num den) := by
  have hp : 2 ^ precision f = 2 * 2 ^ (precision f - 1) := by cases f <;> simp [precision]
  have hmin : minExp f ≤ roundingExp f num den := le_max_right _ _
  rcases fRound_cases f s num den with ⟨_, h⟩ | ⟨hn, hq, he, h⟩ | ⟨hn, hq, he, h⟩ | ⟨_, h, _⟩ <;> rw [h]
  · exact fCanonical_fZero f s
  · have hle := roundingInt_le f (Nat.pos_of_ne_zero hn) hd
    refine ⟨lt_of_le_of_ne hle hq, hmin, he, ?_⟩
    by_cases hm : roundingExp f num den = minExp f
    · exact .inr hm
    · exact .inl (le_roundingInt f (Nat.pos_of_ne_zero hn) hd hm)
  · refine ⟨?_, by omega, he, .inl le_rfl⟩
    have : 0 < 2 ^ (precision f - 1) := by positivity
    omega
  · trivial

/-- The NaN that an invalid operation makes is one of the format, whatever the free bits. -/
theorem fCanonical_madeNaN (a : Arith) : fCanonical a.nf (madeNaN a) := by
  have h : a.free.toNat % 2 ^ (precision a.nf - 1) < 2 ^ (precision a.nf - 1) := Nat.mod_lt _ (by positivity)
  have hq : 0 < 2 ^ (precision a.nf - 2) ∧ 2 ^ (precision a.nf - 2) < 2 ^ (precision a.nf - 1) := by
    cases a.nf <;> simp [precision]
  simp only [madeNaN, fCanonical]
  split <;> omega

/-- Multiplication gives a value of the format. -/
theorem fCanonical_fMul (a : Arith) (u v : Native) : fCanonical a.nf (fMul a u v) := by
  unfold fMul
  split <;> (try split) <;> first
    | exact fCanonical_madeNaN a
    | exact fCanonical_fRound a.nf _ _ (by positivity)
    | trivial

/-- Division gives a value of the format. -/
theorem fCanonical_fDiv (a : Arith) (u v : Native) : fCanonical a.nf (fDiv a u v) := by
  unfold fDiv
  split
  all_goals first | exact fCanonical_madeNaN a | exact fCanonical_fZero a.nf _ | trivial | skip
  split
  · split
    · exact fCanonical_madeNaN a
    · trivial
  · rename_i h
    exact fCanonical_fRound a.nf _ _ (Nat.mul_pos (Nat.pos_of_ne_zero h) (by positivity))

/-- Conversion of an integer gives a value of the format. -/
theorem fCanonical_fFromUnsigned (f : NF) (i : Nat) : fCanonical f (fFromUnsigned f i) :=
  fCanonical_fRound f false i Nat.one_pos

theorem fCanonical_fAbs {f : NF} {v : Native} (h : fCanonical f v) : fCanonical f (fAbs v) := by
  cases v <;> exact h

theorem fCanonical_fNeg {f : NF} {v : Native} (h : fCanonical f v) : fCanonical f (fNeg v) := by
  cases v <;> exact h

theorem fCanonical_fOne (f : NF) : fCanonical f (fOne f) := by cases f <;> simp [fOne, fCanonical, precision, minExp, maxExp]

theorem fCanonical_fTen (f : NF) : fCanonical f (fTen f) := by cases f <;> simp [fTen, fCanonical, precision, minExp, maxExp]

/-- Every encoding stands for a value of the format. -/
theorem fCanonical_fOfBits (f : NF) (b : BitVec f.width) : fCanonical f (fOfBits f b) := by
  have hfrac : b.toNat % 2 ^ (precision f - 1) < 2 ^ (precision f - 1) := Nat.mod_lt _ (by positivity)
  have hfield : b.toNat / 2 ^ (precision f - 1) % 2 ^ expFieldWidth f < 2 ^ expFieldWidth f := Nat.mod_lt _ (by positivity)
  have hp : 2 ^ precision f = 2 * 2 ^ (precision f - 1) := by cases f <;> simp [precision]
  have hmax : maxExp f = minExp f + (2 ^ expFieldWidth f - 3 : Nat) := by cases f <;> simp [minExp, maxExp, expFieldWidth]
  have hw : 4 ≤ 2 ^ expFieldWidth f := by cases f <;> simp [expFieldWidth]
  unfold fOfBits
  dsimp only
  split
  · split
    · trivial
    · exact ⟨by omega, hfrac⟩
  · split
    · exact ⟨by omega, le_rfl, by omega, .inr rfl⟩
    · exact ⟨by omega, by omega, by omega, .inl (by omega)⟩

end Sys2Proof.Machine
end

