-- ==== Sys2Proof/Laws/DecimalScale.lean ====
section
/-! SUPPORT. The free bits of the arithmetic show only in the NaN that an invalid operation makes: valid operations, the loops of `DEXPF`
and the powers of ten do not depend on them (41_decimalscale.md R103, R105). -/

namespace Sys2Proof.Machine

/-- An operation of these operands is not invalid, and none of them is a NaN: `F_mul`. -/
def mulValid (u v : Native) : Bool :=
  !fIsNaN u && !fIsNaN v && !(fIsInf u && fIsZero v) && !(fIsZero u && fIsInf v)

/-- An operation of these operands is not invalid, and none of them is a NaN: `F_div`. -/
def divValid (u v : Native) : Bool :=
  !fIsNaN u && !fIsNaN v && !(fIsInf u && fIsInf v) && !(fIsZero u && fIsZero v)

theorem fIsNaN_fRound (f : NF) (s : Bool) (num den : Nat) : fIsNaN (fRound f s num den) = false := by
  rcases fRound_cases f s num den with ⟨_, h⟩ | ⟨_, _, _, h⟩ | ⟨_, _, _, h⟩ | ⟨_, h, _⟩ <;> rw [h] <;> rfl

/-- A valid multiplication does not make a NaN, and the free bits do not show in it. -/
theorem fMul_of_valid {u v : Native} (h : mulValid u v = true) (a : Arith) (free : BitVec 64) :
    fIsNaN (fMul a u v) = false ∧ fMul ⟨a.nf, free⟩ u v = fMul a u v := by
  rcases u with _ | _ | ⟨_, m, _⟩ <;> rcases v with _ | _ | ⟨_, n, _⟩
  case fin.fin => exact ⟨fIsNaN_fRound .., rfl⟩
  all_goals simp_all [mulValid, fMul, fIsNaN, fIsInf, fIsZero]

/-- A valid division does not make a NaN, and the free bits do not show in it. -/
theorem fDiv_of_valid {u v : Native} (h : divValid u v = true) (a : Arith) (free : BitVec 64) :
    fIsNaN (fDiv a u v) = false ∧ fDiv ⟨a.nf, free⟩ u v = fDiv a u v := by
  rcases u with _ | _ | ⟨_, m, _⟩ <;> rcases v with _ | _ | ⟨_, n, _⟩
  case fin.fin =>
    by_cases hn : n = 0
    · simp_all [divValid, fDiv, fIsNaN, fIsInf, fIsZero]
    · simp only [fDiv, if_neg hn]
      exact ⟨fIsNaN_fRound .., trivial⟩
  all_goals simp_all [divValid, fDiv, fIsNaN, fIsInf, fIsZero, fZero]

theorem mulValid_fTen (f : NF) {v : Native} (h : fIsNaN v = false) : mulValid v (fTen f) = true := by
  cases v <;> simp_all [mulValid, fTen, fIsNaN, fIsInf, fIsZero]

theorem divValid_fTen (f : NF) {v : Native} (h : fIsNaN v = false) : divValid v (fTen f) = true := by
  cases v <;> simp_all [divValid, fTen, fIsNaN, fIsInf, fIsZero]

theorem divValid_fOne (f : NF) {v : Native} (h : fIsNaN v = false) : divValid (fOne f) v = true := by
  cases v <;> simp_all [divValid, fOne, fIsNaN, fIsInf, fIsZero]

theorem scaleDown_free (a : Arith) (free : BitVec 64) (fuel : Nat) {v : Native} (e : Int) (h : fIsNaN v = false) :
    fIsNaN (scaleDown a fuel v e).1 = false ∧ scaleDown ⟨a.nf, free⟩ fuel v e = scaleDown a fuel v e := by
  induction fuel generalizing v e with
  | zero => exact ⟨h, rfl⟩
  | succ fuel ih =>
    have hd := fDiv_of_valid (divValid_fTen a.nf h) a free
    simp only [scaleDown, hd.2]
    split
    · exact ih (e + 1) hd.1
    · exact ⟨h, rfl⟩

theorem scaleUp_free (a : Arith) (free : BitVec 64) (fuel : Nat) {v : Native} (e : Int) (h : fIsNaN v = false) :
    scaleUp ⟨a.nf, free⟩ fuel v e = scaleUp a fuel v e := by
  induction fuel generalizing v e with
  | zero => rfl
  | succ fuel ih =>
    have hm := fMul_of_valid (mulValid_fTen a.nf h) a free
    simp only [scaleUp, hm.2]
    split
    · exact ih (e - 1) hm.1
    · rfl

/-- `DEXPF` of a value that is not a NaN does not depend on the free bits. -/
theorem decimalExponent_free (a : Arith) (free : BitVec 64) {v : Native} (h : fIsNaN v = false) :
    decimalExponent ⟨a.nf, free⟩ v = decimalExponent a v := by
  have hd := scaleDown_free a free loopFuel 0 h
  simp only [decimalExponent, decimalScale, hd.2, scaleUp_free a free loopFuel _ hd.1]

theorem timesTen_free (a : Arith) (free : BitVec 64) (k : Nat) {v : Native} (h : fIsNaN v = false) :
    fIsNaN (timesTen a k v) = false ∧ timesTen ⟨a.nf, free⟩ k v = timesTen a k v := by
  induction k generalizing v with
  | zero => exact ⟨h, rfl⟩
  | succ k ih =>
    have hm := fMul_of_valid (mulValid_fTen a.nf h) a free
    simp only [timesTen, hm.2]
    exact ih hm.1

/-- `P10F` is never a NaN, and does not depend on the free bits. -/
theorem powerOfTen_free (a : Arith) (free : BitVec 64) (k : Int) :
    fIsNaN (powerOfTen a k) = false ∧ powerOfTen ⟨a.nf, free⟩ k = powerOfTen a k := by
  have ht := timesTen_free a free (min k.natAbs (tenCap a.nf)) (v := fOne a.nf) rfl
  have hd := fDiv_of_valid (divValid_fOne a.nf ht.1) a free
  simp only [powerOfTen, ht.2, hd.2]
  split
  · exact ⟨hd.1, trivial⟩
  · exact ⟨ht.1, trivial⟩

end Sys2Proof.Machine
end

