-- ==== Sys2Proof/Laws/State.lean ====
section
/-! SUPPORT. What each update of the state does to each field, one lemma per field per update. -/

namespace Sys2Proof.Machine

variable (s : State)

section respond
variable (p : Response s.cfg)
@[simp] theorem State.respond_cfg : (s.respond p).cfg = s.cfg := rfl
@[simp] theorem State.respond_host : (s.respond p).host = s.host := rfl
@[simp] theorem State.respond_inFlight : (s.respond p).inFlight = s.inFlight ++ [p] := rfl
@[simp] theorem State.respond_rspValid : (s.respond p).rspValid = s.rspValid := rfl
@[simp] theorem State.respond_received : (s.respond p).received = s.received := rfl
@[simp] theorem State.respond_draw : (s.respond p).draw = s.draw + 1 := rfl
@[simp] theorem State.respond_edge : (s.respond p).edge = s.edge := rfl
end respond

@[simp] theorem State.raiseInvalid_eq : s.raiseInvalid = s.respond ⟨0, 0, 0b1000#4⟩ := rfl

@[simp] theorem State.finishEdge_cfg : s.finishEdge.cfg = s.cfg := rfl
@[simp] theorem State.finishEdge_host : s.finishEdge.host = s.host.tail := rfl
@[simp] theorem State.finishEdge_inFlight :
    s.finishEdge.inFlight = if s.edge.rst then [] else if s.delivers then s.inFlight.drop 1 else s.inFlight := rfl
@[simp] theorem State.finishEdge_rspValid :
    s.finishEdge.rspValid = (s.oldestDone && !s.edge.rspReady && !s.edge.rst) := rfl
@[simp] theorem State.finishEdge_received :
    s.finishEdge.received = if s.delivers then s.received ++ s.inFlight.take 1 else s.received := rfl
@[simp] theorem State.finishEdge_draw : s.finishEdge.draw = s.draw := rfl

section withFetchWord
variable (nbits w : Nat)
@[simp] theorem State.withFetchWord_cfg : (s.withFetchWord nbits w).cfg = s.cfg := rfl
@[simp] theorem State.withFetchWord_inFlight : (s.withFetchWord nbits w).inFlight = s.inFlight := rfl
@[simp] theorem State.withFetchWord_rspValid : (s.withFetchWord nbits w).rspValid = s.rspValid := rfl
@[simp] theorem State.withFetchWord_received : (s.withFetchWord nbits w).received = s.received := rfl
@[simp] theorem State.withFetchWord_draw : (s.withFetchWord nbits w).draw = s.draw := rfl
@[simp] theorem State.withFetchWord_portH : (s.withFetchWord nbits w).portH = headerOfWord nbits w := rfl
@[simp] theorem State.withFetchWord_portA : (s.withFetchWord nbits w).portA = s.portA := rfl
@[simp] theorem State.withFetchWord_portB : (s.withFetchWord nbits w).portB = s.portB := rfl
@[simp] theorem State.withFetchWord_portX : (s.withFetchWord nbits w).portX = s.portX := rfl
@[simp] theorem State.withFetchWord_accepts : (s.withFetchWord nbits w).accepts = true := rfl
end withFetchWord

section resetOf
variable (c : Config)
@[simp] theorem State.resetOf_cfg : (State.resetOf c).cfg = c := rfl
@[simp] theorem State.resetOf_host : (State.resetOf c).host = [] := rfl
@[simp] theorem State.resetOf_inFlight : (State.resetOf c).inFlight = [] := rfl
@[simp] theorem State.resetOf_rspValid : (State.resetOf c).rspValid = false := rfl
@[simp] theorem State.resetOf_received : (State.resetOf c).received = [] := rfl
@[simp] theorem State.resetOf_draw : (State.resetOf c).draw = 0 := rfl
end resetOf

end Sys2Proof.Machine
end

