-- ==== Sys2Proof/Laws/Ops.lean ====
section
/-! SUPPORT. What each shared operation can do, said once: taking a CF word apart and putting it together, running a
command, one clock edge. -/

namespace Sys2Proof.Machine

open Sys2Proof.Safety

variable {c : Config}

section words

/-- `fields(c)` reads the sign bit, `sint` of the exponent field and `uint` of the mantissa field (30_encoding.md R62). -/
theorem fields_eq (w : BitVec c.W) : fields w = ⟨negative w, exponent w, mantissa w⟩ := by
  simp [fields, signField, expField, mantField, negative, exponent, mantissa, BitVec.msb_eq_getLsbD_last]

/-- `pack` wraps each field on its own and flags each wrap (30_encoding.md R63). -/
theorem packed_eq (s : Bool) (e : Int) (m : Nat) :
    packed c s e m = ⟨cfWord s (BitVec.ofInt c.E e) (BitVec.ofNat c.M m), 0,
      status (exponentOutOfRange c e) (mantissaOutOfRange c m) false⟩ := by
  simp [packed]

theorem signField_eq_negative (w : BitVec c.W) : signField w = negative w := by
  rw [signField, negative, BitVec.msb_eq_getLsbD_last]

variable (s : Bool) (x : BitVec c.E) (m : BitVec c.M)

theorem expField_cfWord : expField (cfWord s x m) = x := by
  apply BitVec.eq_of_getLsbD_eq
  intro i hi
  simp only [expField, cfWord, BitVec.getLsbD_extractLsb', BitVec.getLsbD_append]
  simp [hi]

theorem mantField_cfWord : mantField (cfWord s x m) = m := by
  apply BitVec.eq_of_getLsbD_eq
  intro i hi
  simp only [mantField, cfWord, BitVec.getLsbD_extractLsb', BitVec.getLsbD_append]
  simp [hi]

theorem signField_cfWord : signField (cfWord s x m) = s := by
  have h1 : ¬ c.W - 1 < c.M := by have := c.two_le_E; simp only [Config.W]; omega
  have h2 : ¬ c.W - 1 - c.M < c.E := by simp only [Config.W]; omega
  have h3 : c.W - 1 - c.M - c.E = 0 := by simp only [Config.W]; omega
  simp only [signField, cfWord, BitVec.getLsbD_append, h1, h2, h3, if_false]
  simp

@[simp] theorem negative_cfWord : negative (cfWord s x m) = s := by
  rw [← signField_eq_negative, signField_cfWord]

@[simp] theorem exponent_cfWord : exponent (cfWord s x m) = x.toInt := by
  have h := expField_cfWord s x m
  rw [expField] at h
  rw [exponent, h]

@[simp] theorem mantissa_cfWord : mantissa (cfWord s x m) = m.toNat := by
  have h := mantField_cfWord s x m
  rw [mantField] at h
  rw [mantissa, h]

/-- A CF word is its three fields (10_state.md R22). -/
theorem cfWord_fields (w : BitVec c.W) : cfWord (signField w) (expField w) (mantField w) = w := by
  apply BitVec.eq_of_getLsbD_eq
  intro i hi
  have hW : c.W = 1 + c.E + c.M := rfl
  by_cases h1 : i < c.M
  · simp [cfWord, BitVec.getLsbD_append, mantField, h1]
  · by_cases h2 : i - c.M < c.E
    · simp [cfWord, BitVec.getLsbD_append, expField, h1, h2, show c.M + (i - c.M) = i by omega]
    · have h3 : i = c.W - 1 := by omega
      have h4 : i - c.M - c.E = 0 := by omega
      simp [cfWord, BitVec.getLsbD_append, signField, h1, h2, h4, ← h3]

/-- Two CF words with the same fields are the same word. -/
theorem word_ext {v w : BitVec c.W} (hs : negative v = negative w) (he : exponent v = exponent w)
    (hm : mantissa v = mantissa w) : v = w := by
  rw [← cfWord_fields v, ← cfWord_fields w]
  rw [signField_eq_negative, signField_eq_negative, hs]
  rw [show expField v = expField w from BitVec.eq_of_toInt_eq he,
    show mantField v = mantField w from BitVec.eq_of_toNat_eq hm]

/-- The exponent of a word is in `EMIN .. EMAX` (30_encoding.md R62). -/
theorem exponent_range (w : BitVec c.W) : c.EMIN ≤ exponent w ∧ exponent w ≤ c.EMAX := by
  have h1 := BitVec.le_toInt (w.extractLsb' c.M c.E)
  have h2 := BitVec.toInt_lt (x := w.extractLsb' c.M c.E)
  simp only [Config.EMIN, Config.EMAX, exponent]
  push_cast
  omega

/-- The mantissa of a word is in `0 .. MMAX` (30_encoding.md R62). -/
theorem mantissa_le (w : BitVec c.W) : mantissa w ≤ c.MMAX := by
  have := (w.extractLsb' 0 c.M).isLt
  simp only [Config.MMAX, mantissa]
  omega

@[simp] theorem negative_flipSign (w : BitVec c.W) : negative (flipSign w) = !negative w := by
  rw [flipSign, negative_cfWord, signField_eq_negative]

@[simp] theorem exponent_flipSign (w : BitVec c.W) : exponent (flipSign w) = exponent w := by
  rw [flipSign, exponent_cfWord, expField, exponent]

@[simp] theorem mantissa_flipSign (w : BitVec c.W) : mantissa (flipSign w) = mantissa w := by
  rw [flipSign, mantissa_cfWord, mantField, mantissa]

end words

section running

/-- Every instruction runs to a next state, which differs by one response (70_reset_and_hazards.md R201). -/
theorem exec_eq_respond (i : Instr) (s : State) :
    exec i s = .next (s.respond (response s.cfg i s.command s.draw)) := by
  cases i <;> rfl

/-- Every command on the ports runs, a reserved opcode's to the invalid response (30_encoding.md R60, R65). -/
theorem runCommand_eq_respond (s : State) :
    runCommand s = .next (s.respond (transact s.cfg s.command s.draw)) := by
  unfold runCommand transact
  cases h : decode s.portH with
  | error _ => rw [State.portH] at h; simp only [h]; rfl
  | ok i => rw [State.portH] at h; simp only [h, exec_eq_respond]

/-- A step at which a command is accepted. -/
theorem step_of_accepts {s : State} (h : s.accepts = true) :
    step s = .next (s.respond (transact s.cfg s.command s.draw)).finishEdge := by
  simp [step, h, runCommand_eq_respond]

/-- A step at which none is. -/
theorem step_of_not_accepts {s : State} (h : s.accepts = false) : step s = .next s.finishEdge := by
  simp [step, h]

end running

end Sys2Proof.Machine
end

