-- ==== Sys2Proof/Laws/PerInstr.lean ====
section
/-! SUPPORT. Statements made once per instruction, about the instruction as syntax. -/

namespace Sys2Proof.Laws.EncodedFields

/-- An instruction's header is put together from its own two fields, and its operation code is not a reserved one
(30_encoding.md R56, R57, R60). -/
def Statement (i : Instr) : Prop :=
  encode i = header (nField (encode i)) (opField (encode i)) ∧ (opField (encode i)).toNat < 14

theorem zero : Statement .zero := by unfold Statement; decide

theorem b2u (n : WidthField) : Statement (.b2u n) := by unfold Statement; revert n; decide

theorem b2s (n : WidthField) : Statement (.b2s n) := by unfold Statement; revert n; decide

theorem u2b (n : WidthField) : Statement (.u2b n) := by unfold Statement; revert n; decide

theorem s2b (n : WidthField) : Statement (.s2b n) := by unfold Statement; revert n; decide

theorem dexp : Statement .dexp := by unfold Statement; decide

theorem enc : Statement .enc := by unfold Statement; decide

theorem dec : Statement .dec := by unfold Statement; decide

theorem neg : Statement .neg := by unfold Statement; decide

theorem add : Statement .add := by unfold Statement; decide

theorem sub : Statement .sub := by unfold Statement; decide

theorem mul : Statement .mul := by unfold Statement; decide

theorem rcpa : Statement .rcpa := by unfold Statement; decide

theorem diva : Statement .diva := by unfold Statement; decide

end Sys2Proof.Laws.EncodedFields
end

