-- ==== Sys2Proof/Tests/Slice0.lean ====
section
/-! SUPPORT. Tests: expected values are written out from spec/95_test_vectors.md (V and S numbers), from 30_encoding.md and from the
tables of the rules; and, for each statement that has hypotheses, a state and operands that meet them. -/

namespace Sys2Proof.Tests

open Sys2Proof.Machine Sys2Proof.Safety

/- One theorem after the other: a hundred kernel evaluations at once ask for more threads than the memory limit allows. -/
set_option Elab.async false

/-! ### Small states -/

/-- The instance of the vectors' sections with 32-bit `X`: `E = 8, M = 23, NF = binary32`. -/
def single : Config := ⟨8, 23, .binary32, by decide, by decide, by decide⟩

/-- The narrow instance of section 2.14: `E = 5, M = 10, NF = binary64`. -/
def narrow : Config := ⟨5, 10, .binary64, by decide, by decide, by decide⟩

/-- An edge that offers a command to a willing unit, and takes no response. -/
def offer {c : Config} (m : Command c) : Edge c := ⟨false, true, false, m, true, false⟩

/-- A command as numbers. -/
def command (c : Config) (h a b x : Nat) : Command c := ⟨.ofNat 11 h, .ofNat c.W a, .ofNat c.W b, .ofNat 64 x⟩

/-- An instance after reset, about to accept one command. -/
def state (c : Config) (h a b x : Nat) : State := { State.resetOf c with host := [offer (command c h a b x)] }

/-- What one step adds in flight, as numbers: `R`, `Y`, `ST`. -/
def answer (s : State) : Option (Nat × Nat × Nat) :=
  match step s with
  | .next t => t.inFlight.getLast?.map fun p => (p.r.toNat, p.y.toNat, p.st.toNat)
  | .fault _ => none
  | .refused _ => none

/-! ### Well-formedness: one ill-formed term for each check (R58) -/

theorem test_check_unsigned_zero : Instr.check (.b2u 0) = some .zero ∧ Instr.check (.u2b 0) = some .zero := by decide
theorem test_check_unsigned_above64 : Instr.check (.b2u 65) = some .above64 ∧ Instr.check (.u2b 127) = some .above64 := by decide
theorem test_check_signed_zero : Instr.check (.b2s 0) = some .zero ∧ Instr.check (.s2b 0) = some .zero := by decide
theorem test_check_signed_one : Instr.check (.b2s 1) = some .oneOnSigned ∧ Instr.check (.s2b 1) = some .oneOnSigned := by decide
theorem test_check_signed_above64 : Instr.check (.b2s 65) = some .above64 ∧ Instr.check (.s2b 127) = some .above64 := by decide
theorem test_check_legal : ([.b2u 1, .u2b 64, .b2s 2, .s2b 64, .zero, .diva] : List Instr).all Instr.wellFormed = true := by
  decide

/-! ### Decoding: every constructor from a header written out from R56 and R57 -/

theorem test_decode_zero : decodeTableWord 11 0b00000000000 = some .zero := by decide
theorem test_decode_b2u : decodeTableWord 11 0b00000100001 = some (.b2u 2) := by decide
theorem test_decode_b2s : decodeTableWord 11 0b00000110010 = some (.b2s 3) := by decide
theorem test_decode_u2b : decodeTableWord 11 0b00010000011 = some (.u2b 8) := by decide
theorem test_decode_s2b : decodeTableWord 11 0b00010000100 = some (.s2b 8) := by decide
theorem test_decode_dexp : decodeTableWord 11 0b00000000101 = some .dexp := by decide
theorem test_decode_enc : decodeTableWord 11 0b00000000110 = some .enc := by decide
theorem test_decode_dec : decodeTableWord 11 0b00000000111 = some .dec := by decide
theorem test_decode_neg : decodeTableWord 11 0b00000001000 = some .neg := by decide
theorem test_decode_add : decodeTableWord 11 0b00000001001 = some .add := by decide
theorem test_decode_sub : decodeTableWord 11 0b00000001010 = some .sub := by decide
theorem test_decode_mul : decodeTableWord 11 0b00000001011 = some .mul := by decide
theorem test_decode_rcpa : decodeTableWord 11 0b00000001100 = some .rcpa := by decide
theorem test_decode_diva : decodeTableWord 11 0b00000001101 = some .diva := by decide
theorem test_decode_width_ignored : decodeTableWord 11 0x4D5 = some .dexp := by decide
theorem test_decode_width_highest : decodeTableWord 11 0x7F1 = some (.b2u 127) := by decide
theorem test_decode_reserved : decodeTableWord 11 0x00E = none ∧ decodeTableWord 11 0x7FF = none := by decide
theorem test_decode_sixteen_bits : decodeTableWord 16 0x0021 = some (.b2u 2) := by decide

/-! ### The assembler's names (R70, R71) and the examples of 30_encoding.md section 8 -/

theorem test_assemble_codec : assemble "B2U" (some 2) = some 0x021#11 ∧ assemble "signed_to_bits" (some 8) = some 0x084#11 := by
  decide
theorem test_assemble_plain : assemble "approximate_reciprocal" none = some 0x00C#11 ∧ assemble "divide" none = some 0x00D#11 := by
  decide
theorem test_assemble_refuses : assemble "ADD" (some 1) = none ∧ assemble "B2U" none = none ∧ assemble "MOV" none = none := by
  decide
theorem test_literal : (cfLiteral Config.common false 1 5000000).map BitVec.toNat = some 0x00CC4B40 ∧
    (cfLiteral Config.common true 0 8388608).isNone = true := by decide +kernel

/-- A line's header and scalar operand, as numbers. -/
def line (mnemonic : String) (width : Option Nat) (operands : List Operand) : Option (Nat × Nat) :=
  (assembleLine (c := Config.common) [] 0 mnemonic width operands).map fun m => (m.h.toNat, m.x.toNat)

theorem test_line_bits : line "B2S" (some 3) [.bits [true, false, true]] = some (0x032, 5) := by decide +kernel
theorem test_line_integer : line "S2B" (some 8) [.integer (-3)] = some (0x084, 0xFFFFFFFFFFFFFFFD) := by decide +kernel
theorem test_line_decimal : line "DEXP" none [.decimal false 5 1] = some (0x005, 0x4049000000000000) ∧
    line "ENC" none [.decimal false 5 (-2)] = some (0x006, 0x3FA999999999999A) := by decide +kernel
theorem test_line_refuses_wrong_operands : line "ADD" none [.cf false 0 1] = none ∧ line "B2U" (some 2) [.bits [true]] = none := by
  decide +kernel

/-! ### Parameters (S10) and the table of `D(M)` (R9) -/

theorem test_elaborate : (Config.elaborate 8 119 .binary64).isSome = true ∧ Config.elaborate 8 120 .binary64 = none ∧
    (Config.elaborate 126 1 .binary32).isSome = true ∧ Config.elaborate 127 1 .binary32 = none ∧
    Config.elaborate 1 8 .binary64 = none ∧ Config.elaborate 8 0 .binary64 = none := by decide
theorem test_multiplier_exponents :
    [3, 4, 9, 10, 13, 14, 23, 24, 36, 37, 63, 64, 76, 77, 93, 94, 103, 122, 123, 125].map decadeOf =
      [0, 1, 2, 3, 3, 4, 6, 7, 10, 11, 18, 19, 22, 23, 27, 28, 31, 36, 37, 37] := by decide +kernel

/-! ### One or two vectors for each command -/

theorem test_zero : answer (state Config.common 0x000 0xFFFFFFFF 5 7) = some (0, 0, 0) := by decide +kernel
theorem test_b2u : answer (state Config.common 0x021 0 0 0xFFFFFFFFFFFFFFFE) = some (0, 2, 0) := by decide +kernel
theorem test_b2u_invalid : answer (state Config.common 0x411 0 0 5) = some (0, 0, 8) := by decide +kernel
theorem test_b2s : answer (state Config.common 0x032 0 0 5) = some (0, 0xFFFFFFFFFFFFFFFD, 0) := by decide +kernel
theorem test_b2s_ignores : answer (state Config.common 0x082 0 0 0x17F) = some (0, 0x7F, 0) := by decide +kernel
theorem test_u2b : answer (state Config.common 0x023 0 0 5) = some (0, 1, 4) := by decide +kernel
theorem test_u2b_widest : answer (state Config.common 0x403 0 0 0xFFFFFFFFFFFFFFFF) = some (0, 0xFFFFFFFFFFFFFFFF, 0) := by
  decide +kernel
theorem test_s2b : answer (state Config.common 0x034 0 0 0xFFFFFFFFFFFFFFFB) = some (0, 3, 4) := by decide +kernel
theorem test_s2b_lowest : answer (state Config.common 0x034 0 0 0xFFFFFFFFFFFFFFFC) = some (0, 4, 0) := by decide +kernel
theorem test_dexp : answer (state Config.common 0x005 0 0 0x3FA999999999999A) = some (0, 0xFFFFFFFFFFFFFFFE, 0) := by
  decide +kernel
theorem test_dexp_single : answer (state single 0x005 0 0 0xFFFFFFFF42480000) = some (0, 1, 0) := by decide +kernel
theorem test_enc : answer (state Config.common 0x006 0 0 0xC00A000000000000) = some (0x80319750, 0, 0) := by decide +kernel
theorem test_enc_wraps : answer (state narrow 0x006 0 0 0x3FA999999999999A) = some (0x7B88, 0, 2) := by decide +kernel
theorem test_dec : answer (state Config.common 0x007 0x00CC4B40 0 0) = some (0, 0x4049000000000000, 0) := by decide +kernel
theorem test_dec_rounds : answer (state narrow 0x007 0xC001 0 0) = some (0, 0xBBFD83C94FB6D2AC, 0) := by decide +kernel
theorem test_neg : answer (state Config.common 0x008 0x00CC4B40 0 0) = some (0x80CC4B40, 0, 0) := by decide +kernel
theorem test_add_aligns : answer (state Config.common 0x009 0x810F4240 0x004C4B40 0) = some (0x810E7EF0, 0, 0) := by
  decide +kernel
theorem test_add_wraps : answer (state Config.common 0x009 0xFFFFFFFF 0xFFFFFFFF 0) = some (0xFFFFFFFE, 0, 2) := by
  decide +kernel
theorem test_sub : answer (state Config.common 0x00A 0x009E8480 0x00CC4B40 0) = some (0x80ADC6C0, 0, 0) := by decide +kernel
theorem test_sub_wraps : answer (state Config.common 0x00A 0x806ACFC0 0x006ACFC0 0) = some (0x80559F80, 0, 2) := by
  decide +kernel
theorem test_mul_truncates : answer (state Config.common 0x00B 0x0012D687 0x000F4241 0) = some (0x0012D688, 0, 0) := by
  decide +kernel
theorem test_mul_wraps_both : answer (state Config.common 0x00B 0x324C4B40 0x324C4B40 0) = some (0x647D7840, 0, 3) := by
  decide +kernel
theorem test_rcpa : answer (state Config.common 0x00C 0xFEBD0900 0 0) = some (0x81BD0900, 0, 0) := by decide +kernel
theorem test_rcpa_lowest : answer (state Config.common 0x00C 0xC0000000 0 0) = some (0xC0000000, 0, 1) := by decide +kernel
theorem test_diva : answer (state Config.common 0x00D 0x010F4240 0x009E8480 0) = some (0x009E8480, 0, 0) := by decide +kernel
theorem test_diva_wraps : answer (state Config.common 0x00D 0x010F4240 0x400F4240 0) = some (0x410F4240, 0, 1) := by
  decide +kernel
theorem test_reserved : answer (state Config.common 0x7FE 0xFFFFFFFF 0xFFFFFFFF 1) = some (0, 0, 8) := by decide +kernel
theorem test_first_command_after_reset : answer (State.reset.withFetchWord 16 0x032) = some (0, 0, 0) := by decide +kernel

/-! ### The handshake (R196, R200) -/

/-- One response in flight, and valid. -/
def pending (e : Edge Config.common) : State := ⟨Config.common, [e], [⟨1, 0, 0⟩], true, [], 0⟩

/-- An edge that offers nothing. -/
def idle : Edge Config.common := Edge.idle Config.common

/-- What a step leaves: `rsp_valid`, and how many responses are in flight and received. -/
def counts (s : State) : Option (Bool × Nat × Nat) :=
  match step s with
  | .next t => some (t.rspValid, t.inFlight.length, t.received.length)
  | .fault _ => none
  | .refused _ => none

theorem test_response_is_delivered : counts (pending { idle with rspReady := true }) = some (false, 0, 1) := by decide
theorem test_response_waits : counts (pending idle) = some (true, 1, 0) := by decide
theorem test_reset_drops : counts (pending { idle with rst := true, cmdValid := true, unitReady := true }) = some (false, 0, 0) := by
  decide
theorem test_combinational_unit :
    counts { State.resetOf Config.common with
      host := [{ offer (command Config.common 0x000 0 0 0) with rspReady := true, unitDone := true }] } =
      some (false, 0, 1) := by decide
theorem test_not_accepted_while_not_ready :
    counts { State.resetOf Config.common with host := [{ offer (command Config.common 0x000 0 0 0) with unitReady := false }] } =
      some (false, 0, 0) := by decide

/-- B2U.2 of `X = 0b...10` (the header of R57; R84), offered to a combinational unit. -/
def offered (ready take : Bool) : State :=
  { State.resetOf Config.common with
    host := [{ offer (command Config.common 0x021 0 0 0xFFFFFFFFFFFFFFFE) with unitReady := ready, rspReady := take, unitDone := true }] }

/-- R200, `LAT = 0`: `rsp_valid` and the response are up for a command on offer, accepted or not. -/
theorem test_offered_response_is_shown :
    (offered false false).presents = true ∧ (offered false false).accepts = false ∧
    (offered false false).ports.map (fun p => (p.y.toNat, p.st.toNat)) = some (2, 0) ∧
    (offered true true).ports.map (fun p => (p.y.toNat, p.st.toNat)) = some (2, 0) ∧
    (State.resetOf Config.common).presents = false := by decide

/-- R100: `F_neg` flips the sign bit of a NaN, `F_abs` clears it. -/
theorem test_nan_signs :
    fBits .binary32 (fNeg (fOfBits .binary32 0x7FC00001#32)) = 0xFFC00001#32 ∧
    fBits .binary32 (fAbs (fOfBits .binary32 0xFFC00001#32)) = 0x7FC00001#32 := by decide +kernel

/-! ### Witnesses: for every statement with hypotheses, something that meets them -/

/-- A command that is answered at once, and a state about to accept it. -/
def adding : State := state Config.common 0x009 0x00CC4B40 0x009E8480 0

theorem test_witness_EncodedCommandDecodesAndRunsNext :
    11 ≤ 11 ∧ 11 ≤ 16 ∧ decodeTableWord 16 (encode (.s2b 64)).toNat = some (.s2b 64) := by decide

theorem test_witness_WidthFieldIgnoredOutsideCodec :
    opField 0x009#11 = opField 0x7F9#11 ∧ 5 ≤ (opField 0x009#11).toNat ∧
    opField 0x000#11 = opField 0x7F0#11 ∧ (opField 0x000#11).toNat = 0 ∧
    5 ≤ (opField (encode .dexp)).toNat ∧ (opField (encode .zero)).toNat = 0 ∧
    assemble "ADD" none = some 0x009#11 ∧ assemble "ZERO" none = some 0x000#11 := by decide

theorem test_witness_AssembledLineIsItsCommand :
    line "S2B" (some 8) [.integer (-3)] = some (0x084, 0xFFFFFFFFFFFFFFFD) ∧ assemble "signed_to_bits" (some 8) = some 0x084#11 ∧
    line "ADD" none [.cf false 0 1, .hex 7] = some (0x009, 0) := by decide +kernel

theorem test_witness_OperandsStandInPortOrder :
    assemble "B2U" (some 3) = some 0x031#11 ∧ assemble "B2S" (some 3) = some 0x032#11 ∧ assemble "U2B" (some 8) = some 0x083#11 ∧
    assemble "S2B" (some 8) = some 0x084#11 ∧ opField 0x031#11 = 1 ∧ opField 0x032#11 = 2 ∧ opField 0x083#11 = 3 ∧
    opField 0x084#11 = 4 ∧ assemble "ZERO" none = some 0x000#11 ∧ assemble "encode" none = some 0x006#11 ∧
    assemble "DEC" none = some 0x007#11 ∧ assemble "divide" none = some 0x00D#11 ∧ opField 0x000#11 = 0 ∧ opField 0x006#11 = 6 ∧
    opField 0x007#11 = 7 ∧ opField 0x00D#11 = 13 := by decide

theorem test_witness_LiteralsMean :
    let env : List (String × Value Config.common) := [("a", .word 7#32), ("x", .scalar 5#64)]
    env.lookup "a" = some (.word 7#32) ∧ env.lookup "x" = some (.scalar 5#64) ∧ Config.common.EMIN ≤ -128 ∧
    127 ≤ Config.common.EMAX ∧ 8388607 ≤ Config.common.MMAX ∧ (64 : WidthField).toNat ≤ 64 := by decide +kernel

theorem test_witness_ElaborationAcceptsExactlyLegalParameters :
    Config.elaborate 8 23 .binary64 = some Config.common ∧ (Config.elaborate 2 125 .binary32).isSome = true := by decide

theorem test_witness_ResetEdgeDropsUnanswered :
    (pending { idle with rst := true, rspReady := true }).edge.rst = true ∧ (pending { idle with rst := true }).edge.rst = true := by
  decide

theorem test_witness_StepRunsDecodedCommand :
    adding.edge.cmdValid = true ∧ adding.cmdReady = true ∧ adding.edge.rst = false ∧
    decodeTableWord 11 adding.portH.toNat = some .add := by decide

theorem test_witness_EdgeWithoutCommandOnlyDelivers :
    ((pending { idle with rspReady := true }).edge.cmdValid && (pending { idle with rspReady := true }).cmdReady) = false ∧
    (pending { idle with rspReady := true }).edge.rst = false ∧ (pending { idle with rspReady := true }).delivers = true := by
  decide

theorem test_witness_ReservedOpcodeAnswersInvalid :
    (state Config.common 0x7FE 1 2 3).accepts = true ∧ 14 ≤ (opField (state Config.common 0x7FE 1 2 3).portH).toNat ∧
    14 ≤ (opField (state Config.common 0x00F 1 2 3).portH).toNat := by decide

theorem test_witness_ResponseDependsOnCommandAlone :
    adding.accepts = true ∧ fIsNaN (decodedValue Config.common 0 0x00CC4B40#32) = false := by decide +kernel

/-- A response in flight that rises at an edge which also accepts a command. -/
def rising : State :=
  { pending { offer (command Config.common 0x000 0 0 0) with unitDone := true } with rspValid := false }

theorem test_witness_ResponseStaysUntilTaken :
    (rising.inFlight = ⟨1, 0, 0⟩ :: [] ∧ rising.presents = true ∧ rising.accepts = true ∧ rising.edge.rspReady = false ∧
      rising.edge.rst = false) ∧
    ((offered true false).inFlight = [] ∧ (offered true false).rspValid = false ∧ (offered true false).presents = true ∧
      (offered true false).edge.rspReady = false ∧ (offered true false).accepts = true) ∧
    ((offered false false).inFlight = [] ∧ (offered false false).rspValid = false ∧ (offered false false).presents = true ∧
      (offered false false).accepts = false) ∧
    rising.rspValid = false ∧ (pending idle).rspValid = true ∧ (pending idle).inFlight ≠ [] := by decide

/-- The command of a combinational unit that is not ready, held at the next edge. -/
def held : Edge Config.common := { offer (command Config.common 0x021 0 0 2) with unitReady := false, unitDone := true }

/-- An instance after reset with these edges to come. -/
def waiting (es : List (Edge Config.common)) : State := ⟨Config.common, es, [], false, [], 0⟩

theorem test_witness_ResponseStaysUntilTaken_held :
    (waiting [held, held]).presents = true ∧ (waiting [held, held]).accepts = false ∧
    (waiting [held, held]).host.tail = held :: [] ∧ held.cmd = (waiting [held, held]).command ∧ (waiting [held]).presents = true :=
  ⟨by decide, by decide, rfl, rfl, by decide⟩

theorem test_witness_RunAnswersAcceptedCommandsInOrder :
    adding.edge.rst = false ∧ adding.accepts = true ∧ (offered false false).edge.rst = false ∧ (offered false false).accepts = false ∧
    (∀ e ∈ adding.host, e.rst = false) ∧ (acceptedCommands adding.host).length = 1 := by decide

theorem test_witness_EverythingInFlightIsDelivered :
    (∀ e ∈ (pending { idle with rspReady := true, unitDone := true }).host,
      e.rst = false ∧ e.cmdValid = false ∧ e.rspReady = true ∧ e.unitDone = true) ∧
    (pending { idle with rspReady := true, unitDone := true }).inFlight.length ≤
      (pending { idle with rspReady := true, unitDone := true }).host.length := by decide

theorem test_witness_EverythingInFlightIsDelivered_combinational :
    (offered true true).inFlight = [] ∧ (offered true true).rspValid = false ∧ (offered true true).edge.rst = false ∧
    (offered true true).edge.unitDone = true ∧ (offered true true).edge.unitReady = (offered true true).edge.rspReady ∧
    (offered false false).edge.unitReady = (offered false false).edge.rspReady := by decide

theorem test_witness_EveryStepKeepsInvariant : SoundState (pending idle) ∧ counts (pending idle) = some (true, 1, 0) := by
  unfold SoundState Sound
  decide

theorem test_witness_UnusedInputsAreIgnored :
    let m := command Config.common 0x021 1 2 0xFFFFFFFFFFFFFFFE
    let m' := command Config.common 0x021 3 4 2
    (readsA (.b2u 2) = true → m.a = m'.a) ∧ (readsB (.b2u 2) = true → m.b = m'.b) ∧
    m.x.setWidth (readsX Config.common (.b2u 2)) = m'.x.setWidth (readsX Config.common (.b2u 2)) ∧ m.x ≠ m'.x := by decide

theorem test_witness_UnusedOutputsAreZero :
    namesScalar .dec = true ∧ namesScalar .add = false ∧ single.nf = .binary32 := by decide

theorem test_witness_StatusBitsByCommand :
    (rcpaResponse Config.common 0xC0000000#32).oorX = true ∧ (addResponse narrow 0x03E8#16 0x0018#16).oorM = true ∧
    (u2bResponse narrow 2 4).oorI = true ∧ (b2uResponse narrow 0 0).inv = true := by decide +kernel

theorem test_witness_command_headers :
    opField 0x7F0#11 = 0#4 ∧ opField 0x021#11 = 1#4 ∧ opField 0x032#11 = 2#4 ∧ opField 0x083#11 = 3#4 ∧
    opField 0x084#11 = 4#4 ∧ opField 0x005#11 = 5#4 ∧ opField 0x006#11 = 6#4 ∧ opField 0x007#11 = 7#4 ∧
    opField 0x008#11 = 8#4 ∧ opField 0x009#11 = 9#4 ∧ opField 0x00A#11 = 10#4 ∧ opField 0x00B#11 = 11#4 ∧
    opField 0x00C#11 = 12#4 ∧ opField 0x00D#11 = 13#4 := by decide

theorem test_witness_codec_widths :
    legalUnsigned 1 = true ∧ legalUnsigned 64 = true ∧ legalUnsigned 0 = false ∧ legalUnsigned 65 = false ∧
    legalSigned 2 = true ∧ legalSigned 64 = true ∧ legalSigned 1 = false ∧ legalSigned 65 = false := by decide

theorem test_witness_UnsignedRoundTrip :
    let s := state Config.common 0x083 0 0 255
    let t := state Config.common 0x081 0 0 255
    1 ≤ (8 : WidthField).toNat ∧ (8 : WidthField).toNat ≤ 64 ∧ s.portX.toNat < 2 ^ (8 : WidthField).toNat ∧ t.portX = s.portX ∧
    255 < 2 ^ 8 := by decide

theorem test_witness_SignedRoundTrip :
    let s := state Config.common 0x084 0 0 0xFFFFFFFFFFFFFF80
    let t := state Config.common 0x082 0 0 0x80
    2 ≤ (8 : WidthField).toNat ∧ (8 : WidthField).toNat ≤ 64 ∧ -2 ^ ((8 : WidthField).toNat - 1) ≤ s.portX.toInt ∧
    s.portX.toInt ≤ 2 ^ ((8 : WidthField).toNat - 1) - 1 ∧ t.portX = 0x80 ∧
    1 < 8 ∧ (-2 ^ (8 - 1) : Int) ≤ -128 ∧ (-128 : Int) ≤ 2 ^ (8 - 1) - 1 := by decide

theorem test_witness_SequenceRoundTrips : 1 < ([true, false, true] : BitSeq).length ∧ 1 < 3 := by decide

theorem test_witness_NativeEncodingRoundTrip :
    fCanonical .binary32 (.fin false 1 (-149)) ∧ fCanonical .binary64 (.inf true) ∧ fCanonical .binary32 (.nan true 1) :=
  ⟨by show (_ ∧ _ ∧ _ ∧ _); decide +kernel, trivial, by show (_ ∧ _); decide⟩

theorem test_witness_NativeComparisonIsExact :
    fIsNaN (.nan true 1) = true ∧ 0 ≤ realValue false 3 (-1) ∧ 0 ≤ realValue true 0 (-1074) := by
  norm_num [fIsNaN, realValue]

theorem test_witness_NativeArithmeticRoundsToNearestEven :
    (3 : Nat) ≠ 0 ∧ fIsNaN (.nan true 1) = true ∧ fIsInf (.inf true) = true ∧ fIsZero (.fin true 0 (-149)) = true ∧
    fCanonical .binary64 (.nan true 1) :=
  ⟨by decide, rfl, rfl, rfl, by show (_ ∧ _); decide +kernel⟩

theorem test_witness_PowerOfTenCapIsHarmless :
    (tenCap .binary64 : Int) ≤ 309 ∧ (-309 : Int) ≤ -(tenCap .binary64 : Int) ∧ (tenCap .binary32 : Int) ≤ 39 ∧
    (-39 : Int) ≤ -(tenCap .binary32 : Int) := by decide

theorem test_witness_SmallPowersOfTenAreExact :
    10 ≤ (match NF.binary32 with | .binary32 => 10 | .binary64 => 22) ∧
    22 ≤ (match NF.binary64 with | .binary32 => 10 | .binary64 => 22) := by decide

theorem test_witness_finite_floats :
    fIsFinite (fOfBits .binary64 0x0000000000000001#64) = true ∧ fIsZero (fOfBits .binary64 0x0000000000000001#64) = false ∧
    fIsFinite (fOfBits .binary32 0x7F7FFFFF#32) = true ∧ fIsZero (fOfBits .binary32 0x7F7FFFFF#32) = false ∧
    fIsFinite (fOfBits .binary64 0x7FF8000000000000#64) = false ∧ fIsFinite (fOfBits .binary32 0xFF800000#32) = false ∧
    fIsZero (fOfBits .binary64 0x8000000000000000#64) = true := by decide +kernel

/-- `50.0` is divided once and `0.05` multiplied twice (R110's examples). -/
theorem test_witness_DecimalExponentRange :
    LoopsRun ⟨.binary64, 0⟩ (fOfBits .binary64 0x4049000000000000#64) 1 0 ∧
    LoopsRun ⟨.binary64, 0⟩ (fOfBits .binary64 0x3FA999999999999A#64) 0 2 := by
  unfold LoopsRun
  decide +kernel

/-- A finite value that ENC refuses: in `binary32`, the smallest subnormal (R123 (g)), whose exponent is -45 (V62). -/
theorem test_witness_EncResult_refuses_tiny :
    let a : Arith := ⟨.binary32, 0⟩
    let v := fOfBits .binary32 0x00000001#32
    fIsFinite v = true ∧ fIsZero v = false ∧ decimalExponent a (fAbs v) = -45 ∧
    fIsFinite (fMul a (fDiv a (fAbs v) (powerOfTenUncapped a (-45))) (powerOfTenUncapped a single.D)) = false := by
  decide +kernel

theorem test_witness_EncResult_packs :
    let a : Arith := ⟨.binary64, 0⟩
    let v := fOfBits .binary64 0x4049000000000000#64
    fIsFinite v = true ∧ fIsZero v = false ∧ decimalExponent a (fAbs v) = 1 ∧
    fIsFinite (fMul a (fDiv a (fAbs v) (powerOfTenUncapped a 1)) (powerOfTenUncapped a Config.common.D)) = true := by
  decide +kernel

theorem test_witness_EncSignSymmetry :
    let x := 0x400A000000000000#64
    let x' := 0xC00A000000000000#64
    fIsZero (floatOperand Config.common x) = false ∧ floatOperand Config.common x' = fNeg (floatOperand Config.common x) ∧
    (encResponse Config.common 0 x).inv = false := by decide +kernel

/-- `cf(0, 39, 0)` where `NF = binary32`: the lowest exponent whose power of ten is infinite. -/
theorem test_witness_DecGivesNaNOnInfinityTimesZero :
    let s := state single 0x007 0x13800000 0 0
    (tenCap single.nf : Int) ≤ exponent s.portA ∧ mantissa s.portA = 0 := by decide +kernel

theorem test_witness_DecOfNegatedWord : (0 = 0 ∨ fIsNaN (decodedValue single 0 0x13800000#32) = false) ∧ fIsNaN (decodedValue single 0 0x13000000#32) = false := by decide +kernel

theorem test_witness_DecOfZeroWords :
    (state Config.common 0x007 0 0 0).portA.toNat = 0 ∧
    (state Config.common 0x007 0x80000000 0 0).portA.toNat = (flipSign (0 : BitVec Config.common.W)).toNat := by decide +kernel

theorem test_witness_RcpaResult : exponent (state Config.common 0x00C 0xC0000000 0 0).portA = Config.common.EMIN := by decide +kernel

/-- Exponents 7 apart, and `D(23) = 6` (V178). -/
theorem test_witness_AddDropsFarSmallerOperand :
    let s := state Config.common 0x009 0x038F4240 0x007FFFFF 0
    let t := state Config.common 0x009 0x007FFFFF 0x038F4240 0
    ((Config.common.D : Int) < exponent s.portA - exponent s.portB) ∧
    ((Config.common.D : Int) < exponent t.portB - exponent t.portA) := by decide +kernel

theorem test_witness_AddWithoutFlagIsExact : (addResponse Config.common 0x030F4240#32 0x007FFFFF#32).st = 0 := by
  decide +kernel

theorem test_witness_AddOfEqualExponentsAddsIdealValues :
    exponent (c := Config.common) 0x00CC4B40#32 = exponent (c := Config.common) 0x809E8480#32 ∧
    (addResponse Config.common 0x00CC4B40#32 0x809E8480#32).st = 0 := by decide +kernel

theorem test_witness_MulWithoutFlagMultipliesIdealValues :
    (mulResponse Config.common 0x010F4240#32 0x7FCC4B40#32).st = 0 ∧
    Config.common.MM ∣ mantissa (c := Config.common) 0x010F4240#32 * mantissa (c := Config.common) 0x7FCC4B40#32 := by
  decide +kernel

theorem test_witness_NegAndRcpaOnIdealValues : (rcpaResponse Config.common 0x009E8480#32).st = 0 := by decide +kernel

theorem test_witness_MulByOneIsIdentity :
    let s := state Config.common 0x00B 0xFFFFFFFF 0x000F4240 0
    s.portB = cfWord false 0 (BitVec.ofNat s.cfg.M s.cfg.MM) := by decide +kernel

theorem test_witness_RcpaTwiceIsIdentity : exponent (c := Config.common) 0x408F4240#32 ≠ Config.common.EMIN := by decide +kernel

theorem test_witness_DivaByZeroWord : (state Config.common 0x00D 0x010F4240 0 0).portB = 0 := by decide

end Sys2Proof.Tests
end

section
/-! SUPPORT and PROOFS. The statements of 00_scope.md: the legal parameters and the constants derived from them (R7 to R9), the unit as
a function of its command (R13), and the native format's encodings (R10, R101). -/

namespace Sys2Proof

/-! ### Elaboration -/

theorem elaborate_isSome_iff (E M : Nat) (nf : NF) : (Config.elaborate E M nf).isSome ↔ Config.Legal E M := by
  unfold Config.elaborate
  split
  · exact iff_of_true rfl ‹_›
  · exact iff_of_false Bool.false_ne_true ‹_›

theorem parameters_of_elaborate {E M : Nat} {nf : NF} {c : Config} (h : Config.elaborate E M nf = some c) :
    c.E = E ∧ c.M = M ∧ c.nf = nf := by
  unfold Config.elaborate at h
  split at h
  · cases h
    exact ⟨rfl, rfl, rfl⟩
  · cases h

/-- Settles O6, by the two branches of the legality test. -/
theorem elaborationAcceptsExactlyLegalParameters : Obligations.ElaborationAcceptsExactlyLegalParameters := by
  intro E M nf
  refine ⟨elaborate_isSome_iff E M nf, fun c h => ?_⟩
  obtain ⟨hE, hM, hnf⟩ := parameters_of_elaborate h
  exact ⟨hE, hM, hnf, by rw [Config.W, hE, hM]⟩

/-! ### The mantissa multiplier -/

/-- The search up to a bound finds the decimal logarithm, if the bound does not cut it off. -/
theorem largestDecade_eq_min_log (M bound : Nat) : largestDecade M bound = min bound (Nat.log 10 (2 ^ M)) := by
  induction bound with
  | zero => simp [largestDecade]
  | succ d ih =>
    have hlog : 10 ^ (d + 1) ≤ 2 ^ M ↔ d + 1 ≤ Nat.log 10 (2 ^ M) :=
      (Nat.le_log_iff_pow_le (by norm_num) (by positivity)).symm
    simp only [largestDecade, hlog, ih]
    split <;> omega

/-- `D(M)` is the decimal logarithm of `2 ^ M`, rounded down (R9): the bound `M` of its search cuts nothing off. -/
theorem decadeOf_eq_log (M : Nat) : decadeOf M = Nat.log 10 (2 ^ M) := by
  have hbound : Nat.log 10 (2 ^ M) ≤ M :=
    calc Nat.log 10 (2 ^ M) ≤ Nat.log 2 (2 ^ M) := Nat.log_anti_left (by norm_num) (by norm_num)
      _ = M := Nat.log_pow (by norm_num) M
  rw [decadeOf, largestDecade_eq_min_log, min_eq_right hbound]

theorem Config.MM_le (c : Config) : c.MM ≤ 2 ^ c.M := by
  rw [Config.MM, Config.D, decadeOf_eq_log]
  exact Nat.pow_log_le_self 10 (by positivity)

theorem Config.lt_ten_mul_MM (c : Config) : 2 ^ c.M < 10 * c.MM := by
  rw [Config.MM, Config.D, decadeOf_eq_log, ← pow_succ']
  exact Nat.lt_pow_succ_log_self (by norm_num) _

/-- A mantissa has at most 125 bits (R8), and `2 ^ 125 < 10 ^ 38`. -/
theorem Config.D_le (c : Config) : c.D ≤ 37 := by
  have hM : c.M ≤ 125 := by
    have := c.two_le_E
    have := c.width_le
    omega
  have hpow : 10 ^ c.D < 10 ^ 38 :=
    calc 10 ^ c.D ≤ 2 ^ c.M := c.MM_le
      _ ≤ 2 ^ 125 := Nat.pow_le_pow_right (by norm_num) hM
      _ < 10 ^ 38 := by norm_num
  have := (Nat.pow_lt_pow_iff_right (by norm_num)).1 hpow
  omega

/-- Settles O7, since `D` is the decimal logarithm of `2 ^ M`, rounded down. -/
theorem multiplierIsLargestPowerOfTen : Obligations.MultiplierIsLargestPowerOfTen :=
  fun c => ⟨rfl, c.MM_le, c.lt_ten_mul_MM, c.D_le⟩

end Sys2Proof

namespace Sys2Proof.Machine

open Sys2Proof.Safety

/-! ### Native values up to which NaN it is (R126) -/

/-- The same native value, but for which NaN it is where both are one. -/
def EqUpToNaN (u v : Native) : Prop := u = v ∨ (fIsNaN u = true ∧ fIsNaN v = true)

theorem EqUpToNaN.eq_of_not_nan {u v : Native} (h : EqUpToNaN u v) (hu : fIsNaN u = false) : u = v :=
  h.resolve_right fun hn => by simp [hu] at hn

theorem fNeg_eqUpToNaN {u v : Native} (h : EqUpToNaN u v) : EqUpToNaN (fNeg u) (fNeg v) := by
  rcases h with rfl | ⟨hu, hv⟩
  · exact .inl rfl
  · cases u <;> cases v <;> simp_all [EqUpToNaN, fIsNaN, fNeg]

theorem fIsNaN_fAbs (v : Native) : fIsNaN (fAbs v) = fIsNaN v := by cases v <;> rfl

/-- Multiplication makes a NaN exactly of a NaN operand or of infinity times zero (R100). -/
theorem fIsNaN_fMul (a : Arith) (u v : Native) : fIsNaN (fMul a u v) = !mulValid u v := by
  cases h : mulValid u v with
  | true => exact (fMul_of_valid h a a.free).1
  | false =>
    rcases u with _ | _ | ⟨_, m, _⟩ <;> rcases v with _ | _ | ⟨_, n, _⟩ <;>
      simp_all [mulValid, fMul, fIsNaN, fIsInf, fIsZero, madeNaN]

/-- Division makes a NaN exactly of a NaN operand, two infinities or two zeros (R100). -/
theorem fIsNaN_fDiv (a : Arith) (u v : Native) : fIsNaN (fDiv a u v) = !divValid u v := by
  cases h : divValid u v with
  | true => exact (fDiv_of_valid h a a.free).1
  | false =>
    rcases u with _ | _ | ⟨_, m, _⟩ <;> rcases v with _ | _ | ⟨_, n, _⟩ <;>
      simp_all [divValid, fDiv, fIsNaN, fIsInf, fIsZero, madeNaN]

section free
variable (a : Arith) (free : BitVec 64) {u u' v v' : Native}

theorem fMul_eqUpToNaN (hu : EqUpToNaN u u') (hv : EqUpToNaN v v') :
    EqUpToNaN (fMul a u v) (fMul ⟨a.nf, free⟩ u' v') := by
  rcases hu with rfl | ⟨hu, hu'⟩
  · rcases hv with rfl | ⟨hv, hv'⟩
    · cases h : mulValid u v with
      | true => exact .inl (fMul_of_valid h a free).2.symm
      | false => exact .inr (by simp [fIsNaN_fMul, h])
    · exact .inr (by simp [fIsNaN_fMul, mulValid, hv, hv'])
  · exact .inr (by simp [fIsNaN_fMul, mulValid, hu, hu'])

theorem fDiv_eqUpToNaN (hu : EqUpToNaN u u') (hv : EqUpToNaN v v') :
    EqUpToNaN (fDiv a u v) (fDiv ⟨a.nf, free⟩ u' v') := by
  rcases hu with rfl | ⟨hu, hu'⟩
  · rcases hv with rfl | ⟨hv, hv'⟩
    · cases h : divValid u v with
      | true => exact .inl (fDiv_of_valid h a free).2.symm
      | false => exact .inr (by simp [fIsNaN_fDiv, h])
    · exact .inr (by simp [fIsNaN_fDiv, divValid, hv, hv'])
  · exact .inr (by simp [fIsNaN_fDiv, divValid, hu, hu'])

theorem powerOfTen_eqUpToNaN (k : Int) : EqUpToNaN (powerOfTen a k) (powerOfTen ⟨a.nf, free⟩ k) :=
  .inl (powerOfTen_free a free k).2.symm

/-- `MANU` is independent of the free bits: where its arithmetic makes a NaN, it gives no mantissa whichever NaN that is (R108). -/
theorem mantissaUnsigned_free (c : Config) (mag : Native) (e : Int) :
    mantissaUnsigned ⟨a.nf, free⟩ c mag e = mantissaUnsigned a c mag e := by
  have hscaled := fMul_eqUpToNaN a free (fDiv_eqUpToNaN a free (.inl (rfl : mag = mag)) (powerOfTen_eqUpToNaN a free e))
    (powerOfTen_eqUpToNaN a free c.D)
  unfold mantissaUnsigned multiplierFloat
  rcases hscaled with heq | ⟨hnan, hnan'⟩
  · rw [heq]
  · simp [fIsFinite, hnan, hnan']

end free

/-! ### The draw of the free NaN -/

section draw
variable (c : Config) (d d' : Nat)

theorem decimalExponent_draw {v : Native} (h : fIsNaN v = false) :
    decimalExponent (c.arith d) v = decimalExponent (c.arith d') v :=
  decimalExponent_free (c.arith d') (Config.freeNaN d) h

theorem dexpResponse_draw (x : Scalar) : dexpResponse c d x = dexpResponse c d' x := by
  unfold dexpResponse
  dsimp only
  split
  · rfl
  · rename_i hfinite
    have hmag : fIsNaN (fAbs (floatOperand c x)) = false := by simp_all [fIsNaN_fAbs]
    rw [decimalExponent_draw c d d' hmag]

theorem encResponse_draw (x : Scalar) : encResponse c d x = encResponse c d' x := by
  unfold encResponse
  dsimp only
  split
  · rfl
  · rename_i hfinite
    have hmag : fIsNaN (fAbs (floatOperand c x)) = false := by simp_all [fIsNaN_fAbs]
    have hmant (e : Int) : mantissaUnsigned (c.arith d) c (fAbs (floatOperand c x)) e =
        mantissaUnsigned (c.arith d') c (fAbs (floatOperand c x)) e :=
      mantissaUnsigned_free (c.arith d') (Config.freeNaN d) c _ e
    rw [decimalExponent_draw c d d' hmag, hmant]

/-- The draw picks which NaN DEC computes, and nothing else (R126). -/
theorem decodedValue_eqUpToNaN (w : BitVec c.W) : EqUpToNaN (decodedValue c d w) (decodedValue c d' w) := by
  have hquot := fDiv_eqUpToNaN (c.arith d) (Config.freeNaN d')
    (.inl (rfl : fFromUnsigned c.nf (fields w).m = fFromUnsigned c.nf (fields w).m))
    (powerOfTen_eqUpToNaN (c.arith d) (Config.freeNaN d') c.D)
  have hmag := fMul_eqUpToNaN (c.arith d) (Config.freeNaN d')
    (powerOfTen_eqUpToNaN (c.arith d) (Config.freeNaN d') (fields w).e) hquot
  unfold decodedValue
  dsimp only
  split
  · exact fNeg_eqUpToNaN hmag
  · exact hmag

theorem decResponse_draw {w : BitVec c.W} (h : fIsNaN (decodedValue c d w) = false) :
    decResponse c d w = decResponse c d' w := by
  rw [decResponse, decResponse, (decodedValue_eqUpToNaN c d d' w).eq_of_not_nan h]

theorem response_draw (i : Instr) (m : Command c) (h : i = .dec → fIsNaN (decodedValue c d m.a) = false) :
    response c i m d = response c i m d' := by
  cases i with
  | dexp => exact dexpResponse_draw c d d' m.x
  | enc => exact encResponse_draw c d d' m.x
  | dec => exact decResponse_draw c d d' (h rfl)
  | _ => rfl

theorem transact_draw (m : Command c) (h : decode m.h = .ok .dec → fIsNaN (decodedValue c d m.a) = false) :
    transact c m d = transact c m d' := by
  unfold transact
  cases hi : decode m.h with
  | error _ => rfl
  | ok i => exact response_draw c d d' i m fun hdec => h (by rw [hi, hdec])

end draw

/-- Settles O14: the draw only picks the NaN of DEC, and without a NaN there the response is the same for every draw. -/
theorem responseDependsOnCommandAlone : Obligations.ResponseDependsOnCommandAlone :=
  ⟨fun _ hacc => step_of_accepts hacc, fun c m d d' hdec => transact_draw c d d' m hdec⟩

/-! ### Encodings of the native format (R10, R101) -/

section encoding
variable (f : NF)

/-- The exponent field of an encoding. -/
def encodedExp (b : BitVec f.width) : Nat := (b.extractLsb' (fractionWidth f) (exponentWidth f)).toNat

/-- The fraction field of an encoding. -/
def encodedFrac (b : BitVec f.width) : Nat := (b.extractLsb' 0 (fractionWidth f)).toNat

/-- The value that the three fields of an encoding stand for. -/
def valueOfFields (s : Bool) (x t : Nat) : Native :=
  if x = 2 ^ exponentWidth f - 1 then (if t = 0 then .inf s else .nan s t)
  else if x = 0 then .fin s t (minExp f)
  else .fin s (2 ^ fractionWidth f + t) (minExp f + (x - 1 : Nat))

theorem precision_sub_one : precision f - 1 = fractionWidth f := by cases f <;> rfl

theorem two_pow_precision : 2 ^ precision f = 2 * 2 ^ fractionWidth f := by cases f <;> norm_num [precision, fractionWidth]

theorem expFieldWidth_eq : expFieldWidth f = exponentWidth f := by cases f <;> rfl

theorem minExp_eq : minExp f = 1 - bias f - fractionWidth f := by cases f <;> rfl

theorem maxExp_eq : maxExp f = minExp f + (2 ^ exponentWidth f - 3 : Nat) := by cases f <;> rfl

theorem four_le_two_pow_exponentWidth : 4 ≤ 2 ^ exponentWidth f := by cases f <;> norm_num [exponentWidth]

theorem encodedFrac_lt (b : BitVec f.width) : encodedFrac f b < 2 ^ fractionWidth f := BitVec.isLt _

theorem fOfBits_eq_valueOfFields (b : BitVec f.width) :
    fOfBits f b = valueOfFields f b.msb (encodedExp f b) (encodedFrac f b) := by
  simp only [fOfBits, valueOfFields, encodedExp, encodedFrac, precision_sub_one, expFieldWidth_eq,
    BitVec.msb_eq_getLsbD_last, BitVec.extractLsb'_toNat, Nat.shiftRight_eq_div_pow, pow_zero, Nat.div_one]

/-- The three fields of an encoding, put together, are the encoding. -/
theorem fEncode_fields (b : BitVec f.width) : fEncode f b.msb (encodedExp f b) (encodedFrac f b) = b := by
  have hb := b.isLt
  apply BitVec.eq_of_toNat_eq
  simp only [fEncode, encodedExp, encodedFrac, precision_sub_one, BitVec.msb_eq_decide, BitVec.extractLsb'_toNat,
    Nat.shiftRight_eq_div_pow, pow_zero, Nat.div_one, BitVec.toNat_ofNat, Bool.toNat, Bool.cond_decide]
  cases f <;> simp only [NF.width, fractionWidth, exponentWidth] at hb ⊢ <;> split <;> omega

section fields
variable {f} {s : Bool} {x t : Nat}

/-- The fields of an encoding put together from three fields that fit are those fields. -/
theorem fields_fEncode (hx : x < 2 ^ exponentWidth f) (ht : t < 2 ^ fractionWidth f) :
    (fEncode f s x t).msb = s ∧ encodedExp f (fEncode f s x t) = x ∧ encodedFrac f (fEncode f s x t) = t := by
  have hsign : (fEncode f s x t).msb = s ↔ (2 ^ (f.width - 1) ≤ (fEncode f s x t).toNat ↔ s = true) := by
    rw [BitVec.msb_eq_decide, Bool.eq_iff_iff, decide_eq_true_eq]
  rw [hsign]
  simp only [fEncode, encodedExp, encodedFrac, precision_sub_one, BitVec.extractLsb'_toNat, Nat.shiftRight_eq_div_pow,
    pow_zero, Nat.div_one, BitVec.toNat_ofNat]
  cases f <;> simp only [NF.width, fractionWidth, exponentWidth] at hx ht ⊢ <;>
    cases s <;> simp only [Bool.toNat_true, Bool.toNat_false, Bool.false_eq_true, iff_true, iff_false] <;> omega

theorem fOfBits_fEncode (hx : x < 2 ^ exponentWidth f) (ht : t < 2 ^ fractionWidth f) :
    fOfBits f (fEncode f s x t) = valueOfFields f s x t := by
  obtain ⟨hs', hx', ht'⟩ := fields_fEncode (s := s) hx ht
  rw [fOfBits_eq_valueOfFields, hs', hx', ht']

theorem fBits_valueOfFields (ht : t < 2 ^ fractionWidth f) : fBits f (valueOfFields f s x t) = fEncode f s x t := by
  unfold valueOfFields
  split
  · rename_i htop
    rw [htop, ← expFieldWidth_eq]
    split
    · rename_i hinf
      rw [hinf]
      rfl
    · rfl
  · split
    · rename_i hzero
      rw [fBits, precision_sub_one, if_pos ht, hzero]
    · have hexp : (minExp f + (x - 1 : Nat) - minExp f).toNat + 1 = x := by omega
      rw [fBits, precision_sub_one, if_neg (by omega), hexp, Nat.add_sub_cancel_left]

end fields

/-- Every value of the format is that of three fields that fit. -/
theorem exists_fields_of_fCanonical {v : Native} (h : fCanonical f v) :
    ∃ s x t, x < 2 ^ exponentWidth f ∧ t < 2 ^ fractionWidth f ∧ v = valueOfFields f s x t := by
  have hw := four_le_two_pow_exponentWidth f
  have hfrac : 0 < 2 ^ fractionWidth f := by positivity
  cases v with
  | nan s t =>
    obtain ⟨hpos, ht⟩ := h
    rw [precision_sub_one] at ht
    exact ⟨s, _, t, Nat.sub_one_lt (by omega), ht, by rw [valueOfFields, if_pos rfl, if_neg (by omega)]⟩
  | inf s => exact ⟨s, _, 0, Nat.sub_one_lt (by omega), hfrac, by rw [valueOfFields, if_pos rfl, if_pos rfl]⟩
  | fin s m e =>
    obtain ⟨hm, hmin, hmax, hlead⟩ := h
    rw [two_pow_precision] at hm
    rw [precision_sub_one] at hlead
    rw [maxExp_eq] at hmax
    by_cases hsub : m < 2 ^ fractionWidth f
    · have he : e = minExp f := hlead.resolve_left (by omega)
      exact ⟨s, 0, m, by omega, hsub, by rw [valueOfFields, if_neg (by omega), if_pos rfl, he]⟩
    · refine ⟨s, (e - minExp f).toNat + 1, m - 2 ^ fractionWidth f, by omega, by omega, ?_⟩
      rw [valueOfFields, if_neg (by omega), if_neg (by omega), Native.fin.injEq]
      exact ⟨rfl, by omega, by omega⟩

theorem fBits_fOfBits (b : BitVec f.width) : fBits f (fOfBits f b) = b := by
  rw [fOfBits_eq_valueOfFields, fBits_valueOfFields (encodedFrac_lt f b), fEncode_fields]

theorem fOfBits_fBits {v : Native} (h : fCanonical f v) : fOfBits f (fBits f v) = v := by
  obtain ⟨s, x, t, hx, ht, rfl⟩ := exists_fields_of_fCanonical f h
  rw [fBits_valueOfFields ht, fOfBits_fEncode hx ht]

/-- Three fields stand for the value that IEEE 754 gives them. -/
theorem encodes_valueOfFields (s : Bool) (x t : Nat) : Encodes f s x t (valueOfFields f s x t) := by
  unfold Encodes valueOfFields
  split
  · rfl
  · split
    · exact ⟨t, minExp f, rfl, by rw [realValue, minExp_eq, mul_assoc]⟩
    · refine ⟨_, _, rfl, ?_⟩
      have hexp : minExp f + (x - 1 : Nat) = x - bias f - fractionWidth f := by
        rw [minExp_eq]
        omega
      rw [realValue, hexp, mul_assoc]
      push_cast
      rfl

/-! #### The sign bit -/

theorem fNeg_valueOfFields (s : Bool) (x t : Nat) : fNeg (valueOfFields f s x t) = valueOfFields f (!s) x t := by
  unfold valueOfFields
  split
  · split <;> rfl
  · split <;> rfl

theorem fAbs_valueOfFields (s : Bool) (x t : Nat) : fAbs (valueOfFields f s x t) = valueOfFields f false x t := by
  unfold valueOfFields
  split
  · split <;> rfl
  · split <;> rfl

/-- An encoding is put together from its sign and from the fields of any encoding with the same bits below the sign. -/
theorem fEncode_fields_of_low_bits {b b' : BitVec f.width} (h : ∀ i < f.width - 1, b'.getLsbD i = b.getLsbD i) :
    fEncode f b'.msb (encodedExp f b) (encodedFrac f b) = b' := by
  have hw : f.width - 1 = fractionWidth f + exponentWidth f := by cases f <;> rfl
  have hexp : encodedExp f b = encodedExp f b' := by
    refine congrArg BitVec.toNat (BitVec.eq_of_getLsbD_eq fun i hi => ?_)
    rw [BitVec.getLsbD_extractLsb', BitVec.getLsbD_extractLsb', h _ (by omega)]
  have hfrac : encodedFrac f b = encodedFrac f b' := by
    refine congrArg BitVec.toNat (BitVec.eq_of_getLsbD_eq fun i hi => ?_)
    rw [BitVec.getLsbD_extractLsb', BitVec.getLsbD_extractLsb', h _ (by omega)]
  rw [hexp, hfrac, fEncode_fields]

theorem fBits_fNeg_fOfBits (b : BitVec f.width) :
    fBits f (fNeg (fOfBits f b)) = b ^^^ BitVec.twoPow f.width (f.width - 1) := by
  have hmsb : (b ^^^ BitVec.twoPow f.width (f.width - 1)).msb = !b.msb := by
    cases f <;> simp [BitVec.msb_twoPow]
  have hlow : ∀ i < f.width - 1, (b ^^^ BitVec.twoPow f.width (f.width - 1)).getLsbD i = b.getLsbD i := by
    intro i hi
    simp [BitVec.getLsbD_twoPow, hi.ne']
  rw [fOfBits_eq_valueOfFields, fNeg_valueOfFields, fBits_valueOfFields (encodedFrac_lt f b), ← hmsb,
    fEncode_fields_of_low_bits f hlow]

theorem fBits_fAbs_fOfBits (b : BitVec f.width) :
    fBits f (fAbs (fOfBits f b)) = b &&& ~~~BitVec.twoPow f.width (f.width - 1) := by
  have hmsb : (b &&& ~~~BitVec.twoPow f.width (f.width - 1)).msb = false := by
    cases f <;> simp [BitVec.msb_twoPow]
  have hlow : ∀ i < f.width - 1, (b &&& ~~~BitVec.twoPow f.width (f.width - 1)).getLsbD i = b.getLsbD i := by
    intro i hi
    have hlt : i < f.width := by omega
    have hne : i ≠ f.width - 1 := by omega
    simp [hlt, hne]
  rw [fOfBits_eq_valueOfFields, fAbs_valueOfFields, fBits_valueOfFields (encodedFrac_lt f b), ← hmsb,
    fEncode_fields_of_low_bits f hlow]

end encoding

/-- Settles O30, by way of the three fields that an encoding and a value of the format both are. -/
theorem nativeEncodingRoundTrip : Obligations.NativeEncodingRoundTrip := by
  refine fun f => ⟨fun b => ?_, fBits_fOfBits f, fun _ => fOfBits_fBits f, fun b =>
    ⟨fBits_fNeg_fOfBits f b, fBits_fAbs_fOfBits f b⟩⟩
  rw [fOfBits_eq_valueOfFields]
  exact encodes_valueOfFields f b.msb (encodedExp f b) (encodedFrac f b)

end Sys2Proof.Machine
end

section
/-! SUPPORT and PROOFS. The statements of 10_state.md: the reset state (R37), the responses that a command can have and the state they
stand in (R27, R31, R36), the ports a command reads (R36), and the ideal values of CF words (R33). -/

namespace Sys2Proof

/-- The mantissa multiplier, a divisor of ideal values (R33), is not zero. -/
theorem Config.MM_pos (c : Config) : (0 : ℚ) < c.MM := by simp [Config.MM]

end Sys2Proof

namespace Sys2Proof.Machine

open Sys2Proof.Safety

/-! ### Reset -/

theorem ports_resetOf (c : Config) : (State.resetOf c).ports = none := rfl

/-- Settles O8: the record of the reset state, and the idle edge that follows it. -/
theorem resetLeavesNothingInFlight : Obligations.ResetLeavesNothingInFlight :=
  fun c => ⟨State.resetOf_cfg c, State.resetOf_inFlight c, State.resetOf_rspValid c, ports_resetOf c, rfl⟩

/-! ### The status bits (R27) -/

section status
variable (x m i : Bool)

theorem status_eq_zero_iff : status x m i = 0 ↔ x = false ∧ m = false ∧ i = false := by revert x m i; decide

theorem status_or_status (x' m' i' : Bool) :
    status x m i ||| status x' m' i' = status (x || x') (m || m') (i || i') := by
  revert x m i x' m' i'
  decide

section bits
variable {c : Config} (r : BitVec c.W) (y : Scalar)

@[simp] theorem oorX_mk_status : Response.oorX ⟨r, y, status x m i⟩ = x := by
  change (status x m i).getLsbD 0 = x
  revert x m i
  decide

@[simp] theorem oorM_mk_status : Response.oorM ⟨r, y, status x m i⟩ = m := by
  change (status x m i).getLsbD 1 = m
  revert x m i
  decide

@[simp] theorem oorI_mk_status : Response.oorI ⟨r, y, status x m i⟩ = i := by
  change (status x m i).getLsbD 2 = i
  revert x m i
  decide

@[simp] theorem inv_mk_status : Response.inv ⟨r, y, status x m i⟩ = false := by
  change (status x m i).getLsbD 3 = false
  revert x m i
  decide

end bits

end status

/-! ### The responses that a command can have (R36, R174, R177) -/

section shapes
variable {c : Config}

/-- What a command that returns a scalar can answer: the invalid response, or `Y` with at most `OOR_I`. -/
def ScalarResponse (p : Response c) : Prop := p = Response.invalid c ∨ ∃ y i, p = ⟨0, y, status false false i⟩

/-- What a command that returns a CF word can answer: the invalid response, or `R` with at most `OOR_X` and `OOR_M`. -/
def WordResponse (p : Response c) : Prop := p = Response.invalid c ∨ ∃ r x m, p = ⟨r, 0, status x m false⟩

theorem ScalarResponse.ite {p q : Response c} (b : Prop) [Decidable b] (hp : ScalarResponse p) (hq : ScalarResponse q) :
    ScalarResponse (if b then p else q) := by
  split <;> assumption

theorem WordResponse.ite {p q : Response c} (b : Prop) [Decidable b] (hp : WordResponse p) (hq : WordResponse q) :
    WordResponse (if b then p else q) := by
  split <;> assumption

theorem ScalarResponse.r_eq_zero {p : Response c} (h : ScalarResponse p) : p.r = 0 := by
  obtain rfl | ⟨y, i, rfl⟩ := h <;> rfl

theorem WordResponse.y_eq_zero {p : Response c} (h : WordResponse p) : p.y = 0 := by
  obtain rfl | ⟨r, x, m, rfl⟩ := h <;> rfl

theorem sound_invalid (c : Config) : Sound (Response.invalid c) :=
  ⟨fun _ => rfl, fun h => absurd (show invStatus.getLsbD 2 = true from h) (by decide), .inl rfl⟩

theorem ScalarResponse.sound {p : Response c} (h : ScalarResponse p) : Sound p := by
  obtain rfl | ⟨y, i, rfl⟩ := h
  · exact sound_invalid c
  · simp [Sound]

theorem WordResponse.sound {p : Response c} (h : WordResponse p) : Sound p := by
  obtain rfl | ⟨r, x, m, rfl⟩ := h
  · exact sound_invalid c
  · simp [Sound]

theorem wordResponse_packed (c : Config) (s : Bool) (e : Int) (m : Nat) : WordResponse (packed c s e m) :=
  .inr ⟨_, _, _, rfl⟩

theorem wordResponse_encResponse (c : Config) (d : Nat) (x : Scalar) : WordResponse (encResponse c d x) := by
  refine .ite _ (.inl rfl) (.ite _ (.inr ⟨_, _, _, rfl⟩) ?_)
  dsimp only
  split
  · exact .inl rfl
  · exact wordResponse_packed ..

theorem wordResponse_divaResponse (c : Config) (a b : BitVec c.W) : WordResponse (divaResponse c a b) :=
  .inr ⟨_, _, _, congrArg (Response.mk _ 0) (status_or_status ..)⟩

variable (i : Instr) (m : Command c) (d : Nat)

theorem scalarResponse_response (h : namesScalar i = true) : ScalarResponse (response c i m d) := by
  cases i with
  | b2u | b2s | u2b | s2b => exact .ite _ (.inr ⟨_, _, rfl⟩) (.inl rfl)
  | dexp => exact .ite _ (.inl rfl) (.inr ⟨_, _, rfl⟩)
  | dec => exact .inr ⟨_, _, rfl⟩
  | zero | enc | neg | add | sub | mul | rcpa | diva => cases h

theorem wordResponse_response (h : namesScalar i = false) : WordResponse (response c i m d) := by
  cases i with
  | zero | neg => exact .inr ⟨_, _, _, rfl⟩
  | enc => exact wordResponse_encResponse c d m.x
  | add | sub | mul | rcpa => exact wordResponse_packed ..
  | diva => exact wordResponse_divaResponse c m.a m.b
  | b2u | b2s | u2b | s2b | dexp | dec => cases h

theorem sound_response : Sound (response c i m d) := by
  cases h : namesScalar i with
  | true => exact (scalarResponse_response i m d h).sound
  | false => exact (wordResponse_response i m d h).sound

theorem sound_transact : Sound (transact c m d) := by
  unfold transact
  split
  · exact sound_response ..
  · exact sound_invalid c

/-- `Y[63:32]` is zero under `binary32` (R36): an encoding has `NFW` bits. -/
theorem decResponse_y_lt (w : BitVec c.W) : (decResponse c d w).y.toNat < 2 ^ c.nf.width := by
  simp only [decResponse, BitVec.toNat_setWidth]
  exact (Nat.mod_le _ _).trans_lt (BitVec.isLt _)

end shapes

/-- Settles O21: a command's result is a scalar or a word, and the responses of either kind leave the other port zero. -/
theorem unusedOutputsAreZero : Obligations.UnusedOutputsAreZero := by
  refine fun c i m d => ⟨fun h => (scalarResponse_response i m d h).r_eq_zero,
    fun h => (wordResponse_response i m d h).y_eq_zero, fun hnf => ?_⟩
  have hlt := decResponse_y_lt d m.a
  rwa [hnf] at hlt

/-! ### The state that responses stand in (R31, R200) -/

theorem soundState_respond {s : State} (hs : SoundState s) {p : Response s.cfg} (hp : Sound p) :
    SoundState (s.respond p) := by
  obtain ⟨hflight, hreceived, _⟩ := hs
  refine ⟨fun (q : Response s.cfg) (hq : q ∈ s.inFlight ++ [p]) => ?_, hreceived, fun _ => by simp⟩
  rw [List.mem_append, List.mem_singleton] at hq
  obtain hq | rfl := hq
  · exact hflight q hq
  · exact hp

/-- The oldest command in flight is done only where there is one. -/
theorem inFlight_ne_nil_of_oldestDone {s : State} (hs : SoundState s) (h : s.oldestDone = true) : s.inFlight ≠ [] := by
  obtain ⟨_, _, hvalid⟩ := hs
  rw [State.oldestDone, Bool.or_eq_true, Bool.and_eq_true] at h
  obtain h | ⟨_, h⟩ := h
  · exact hvalid h
  · simpa using h

/-- The rest of an edge moves responses that were in flight to the host or drops them, and adds none (R196, R200). -/
theorem soundState_finishEdge {s : State} (hs : SoundState s) : SoundState s.finishEdge := by
  have ⟨hflight, hreceived, _⟩ := hs
  refine ⟨fun q hq => ?_, fun q hq => ?_, fun hvalid => ?_⟩
  · rw [State.finishEdge_inFlight] at hq
    split at hq
    · cases hq
    · split at hq
      · exact hflight q (List.mem_of_mem_drop hq)
      · exact hflight q hq
  · rw [State.finishEdge_received] at hq
    split at hq
    · rcases List.mem_append.1 hq with hq | hq
      · exact hreceived q hq
      · exact hflight q (List.mem_of_mem_take hq)
    · exact hreceived q hq
  · obtain ⟨⟨hdone, hwait⟩, hrst⟩ : (s.oldestDone = true ∧ s.edge.rspReady = false) ∧ s.edge.rst = false := by
      simpa using hvalid
    have hkept : s.finishEdge.inFlight = s.inFlight := by simp [State.delivers, hwait, hrst]
    rw [hkept]
    exact inFlight_ne_nil_of_oldestDone hs hdone

/-- Settles O19: an accepted command adds a sound response, and the rest of the edge adds none. -/
theorem everyStepKeepsInvariant : Obligations.EveryStepKeepsInvariant := by
  intro s t hs hstep
  cases hacc : s.accepts with
  | true =>
    rw [step_of_accepts hacc, Host.Outcome.next.injEq] at hstep
    exact hstep ▸ soundState_finishEdge (soundState_respond hs (sound_transact s.command s.draw))
  | false =>
    rw [step_of_not_accepts hacc, Host.Outcome.next.injEq] at hstep
    exact hstep ▸ soundState_finishEdge hs

/-! ### The ports that a command reads (R36, R61) -/

/-- Settles O20: each command's response is a function of the ports, and the bits of `X`, that it reads. -/
theorem unusedInputsAreIgnored : Obligations.UnusedInputsAreIgnored := by
  intro c i m m' d ha hb hx
  cases i with
  | zero => rfl
  | b2u n | b2s n =>
    have hx : sequenceOperand n.toNat m.x = sequenceOperand n.toNat m'.x := congrArg seqOf hx
    simp only [response, b2uResponse, b2sResponse, hx]
  | u2b n | s2b n =>
    have hx : m.x = m'.x := by simpa [readsX] using hx
    simp only [response, hx]
  | dexp | enc =>
    have hx : floatOperand c m.x = floatOperand c m'.x := congrArg (fOfBits c.nf) hx
    simp only [response, dexpResponse, encResponse, hx]
  | dec | neg | rcpa => simp only [response, ha rfl]
  | add | sub | mul | diva => simp only [response, ha rfl, hb rfl]

/-! ### Powers of ten that are positive, and DEC of a zero mantissa (R23, R125) -/

section rounding
variable {f : NF} {num den : Nat}

theorem signOf_fRound (f : NF) (s : Bool) (num den : Nat) : signOf (fRound f s num den) = s := by
  rcases fRound_cases f s num den with ⟨_, h⟩ | ⟨_, _, _, h⟩ | ⟨_, _, _, h⟩ | ⟨_, h, _⟩ <;> rw [h] <;> rfl

/-- A quotient of at least the least positive value of the format is at least one of the last places it is rounded to. -/
theorem one_le_roundingInt (hd : 0 < den) (h : (2 : ℚ) ^ minExp f ≤ num / den) : 1 ≤ roundingInt f num den := by
  have hdq : (0 : ℚ) < den := by exact_mod_cast hd
  have hn : 0 < num := by
    have hquot : (0 : ℚ) < num / den := lt_of_lt_of_le (by positivity) h
    exact_mod_cast (div_pos_iff_of_pos_right hdq).1 hquot
  have hplace : (2 : ℚ) ^ roundingExp f num den ≤ num / den := by
    obtain he | he := max_choice (floorLog2 num den - (precision f - 1 : Nat)) (minExp f)
    · calc (2 : ℚ) ^ roundingExp f num den
          ≤ 2 ^ floorLog2 num den := by
            rw [roundingExp, he]
            exact zpow_le_zpow_right₀ (by norm_num) (by omega)
        _ ≤ num / den := (floorLog2_spec hn hd).1
    · rwa [roundingExp, he]
  have hd' : 0 < den * 2 ^ (roundingExp f num den).toNat := by positivity
  refine le_nearestEven hd' ?_
  have hunits : (1 : ℚ) ≤ num / den * 2 ^ (-roundingExp f num den) := by
    rwa [zpow_neg, ← div_eq_mul_inv, one_le_div (by positivity)]
  rw [← roundingInt_quotient f hd, one_le_div (by exact_mod_cast hd')] at hunits
  rw [mul_one]
  exact_mod_cast hunits

/-- Rounding does not make a zero of a quotient that is not below the least positive value of the format. -/
theorem fIsZero_fRound (s : Bool) (hd : 0 < den) (h : (2 : ℚ) ^ minExp f ≤ num / den) :
    fIsZero (fRound f s num den) = false := by
  rcases fRound_cases f s num den with ⟨hn, _⟩ | ⟨_, _, _, hr⟩ | ⟨_, _, _, hr⟩ | ⟨_, hr, _⟩
  · rw [hn, Nat.cast_zero, zero_div] at h
    exact absurd h (not_le.2 (by positivity))
  · rw [hr, fIsZero, beq_eq_false_iff_ne]
    exact Nat.one_le_iff_ne_zero.1 (one_le_roundingInt hd h)
  · simp [hr, fIsZero]
  · rw [hr, fIsZero]

end rounding

/-- A native value above zero, infinity included. -/
def Positive (v : Native) : Prop := signOf v = false ∧ fIsNaN v = false ∧ fIsZero v = false

theorem positive_fOne (f : NF) : Positive (fOne f) := by simp [Positive, fOne, signOf, fIsNaN, fIsZero]

section powers
variable (a : Arith)

/-- An integer at a binary exponent, as the quotient of integers that `F_mul` rounds. -/
theorem mul_two_zpow_quotient (n : Nat) (e : Int) :
    ((n * 2 ^ e.toNat : Nat) : ℚ) / (2 ^ (-e).toNat : Nat) = n * 2 ^ e := by
  obtain ⟨k, rfl | rfl⟩ := e.eq_nat_or_neg <;> simp [div_eq_mul_inv]

/-- The value of `F_TEN`. -/
theorem fTen_value (f : NF) : ((5 * 2 ^ (precision f - 3) : Nat) : ℚ) * 2 ^ (4 - precision f : Int) = 10 := by
  cases f <;> norm_num [precision]

/-- Ten times a positive value of the format is positive: it cannot underflow. -/
theorem positive_fMul_fTen {v : Native} (hv : fCanonical a.nf v) (h : Positive v) : Positive (fMul a v (fTen a.nf)) := by
  obtain ⟨hsign, hnan, hzero⟩ := h
  cases v with
  | nan => cases hnan
  | inf s =>
    obtain rfl : s = false := hsign
    simp [Positive, fMul, fTen, signOf, fIsNaN, fIsZero]
  | fin s m e =>
    obtain ⟨_, hmin, _⟩ := hv
    have hm : (1 : ℚ) ≤ m := by
      have : m ≠ 0 := by simpa [fIsZero] using hzero
      exact_mod_cast Nat.one_le_iff_ne_zero.2 this
    obtain rfl : s = false := hsign
    refine ⟨signOf_fRound .., fIsNaN_fRound .., fIsZero_fRound _ (by positivity) ?_⟩
    rw [mul_two_zpow_quotient]
    calc (2 : ℚ) ^ minExp a.nf ≤ 2 ^ e := zpow_le_zpow_right₀ (by norm_num) hmin
      _ ≤ (10 * m) * 2 ^ e := le_mul_of_one_le_left (by positivity) (by linarith)
      _ = (m * (5 * 2 ^ (precision a.nf - 3)) : Nat) * 2 ^ (e + (4 - precision a.nf)) := by
        rw [← fTen_value a.nf, zpow_add₀ (by norm_num), Nat.cast_mul m]
        ring

theorem positive_timesTen (k : Nat) {v : Native} (hv : fCanonical a.nf v) (h : Positive v) : Positive (timesTen a k v) := by
  induction k generalizing v with
  | zero => exact h
  | succ k ih => exact ih (fCanonical_fMul a v (fTen a.nf)) (positive_fMul_fTen a hv h)

/-- `P10F(k)` is positive for `k ≥ 0`. -/
theorem positive_powerOfTen {k : Int} (hk : 0 ≤ k) : Positive (powerOfTen a k) := by
  rw [powerOfTen, if_neg (not_lt.2 hk)]
  exact positive_timesTen a _ (fCanonical_fOne a.nf) (positive_fOne a.nf)

/-- Zero over a positive value is zero. -/
theorem fDiv_fZero_of_positive {v : Native} (h : Positive v) : fDiv a (fZero a.nf false) v = fZero a.nf false := by
  obtain ⟨hsign, hnan, hzero⟩ := h
  cases v with
  | nan => cases hnan
  | inf s =>
    obtain rfl : s = false := hsign
    rfl
  | fin s m e =>
    obtain rfl : s = false := hsign
    have hm : m ≠ 0 := by simpa [fIsZero] using hzero
    simp [fDiv, fZero, hm, fRound]

theorem fMul_fOne_fZero : fMul a (fOne a.nf) (fZero a.nf false) = fZero a.nf false := by
  simp [fMul, fOne, fZero, fRound]

end powers

/-- A word with exponent and mantissa zero decodes to the zero of its sign (R125 (a)). -/
theorem decodedValue_of_zero {c : Config} (d : Nat) {w : BitVec c.W} (he : exponent w = 0) (hm : mantissa w = 0) :
    decodedValue c d w = fZero c.nf (negative w) := by
  have hquot : fDiv (c.arith d) (fFromUnsigned c.nf 0) (multiplierFloat (c.arith d) c) = fZero c.nf false :=
    fDiv_fZero_of_positive (c.arith d) (positive_powerOfTen (c.arith d) (Int.natCast_nonneg c.D))
  have hone : powerOfTen (c.arith d) 0 = fOne c.nf := by simp [powerOfTen, timesTen, Config.arith]
  have hmag : fMul (c.arith d) (fOne c.nf) (fZero c.nf false) = fZero c.nf false := fMul_fOne_fZero (c.arith d)
  simp only [decodedValue, fields_eq, he, hm, hquot, hone, hmag]
  cases negative w <;> rfl

/-- The encoding of a zero is its sign bit. -/
theorem fBits_fZero (f : NF) (s : Bool) :
    (fBits f (fZero f s)).setWidth 64 = if s then BitVec.twoPow 64 (f.width - 1) else 0 := by
  cases f <;> cases s <;> decide

/-- DEC's answer to a word with exponent and mantissa zero: the native zero of its sign (R125 (a)). -/
theorem answers_dec_of_zero {s : State} (he : exponent s.portA = 0) (hm : mantissa s.portA = 0) :
    Answers .dec s ⟨0, if negative s.portA then BitVec.twoPow 64 (s.cfg.nf.width - 1) else 0, 0b0000#4⟩ := by
  rw [Answers, exec_eq_respond, ← fBits_fZero, ← decodedValue_of_zero s.draw he hm]
  rfl

section zeroWord
variable (c : Config)

theorem negative_zero : negative (0 : BitVec c.W) = false := by simp [negative]

theorem exponent_zero : exponent (0 : BitVec c.W) = 0 := by simp [exponent]

theorem mantissa_zero : mantissa (0 : BitVec c.W) = 0 := by simp [mantissa]

end zeroWord

/-- Settles O44: both words have exponent and mantissa zero, and only their signs differ. -/
theorem decOfZeroWords : Obligations.DecOfZeroWords := by
  refine fun s => ⟨fun hA => ?_, fun hA => ?_⟩
  · have hdec := answers_dec_of_zero (s := s) (by rw [hA, exponent_zero]) (by rw [hA, mantissa_zero])
    rwa [hA, negative_zero] at hdec
  · have hdec := answers_dec_of_zero (s := s) (by rw [hA, exponent_flipSign, exponent_zero])
      (by rw [hA, mantissa_flipSign, mantissa_zero])
    rwa [hA, negative_flipSign, negative_zero] at hdec

/-! ### Ideal values (R33) -/

section ideal
variable {c : Config}

/-- The sign of a word, as the factor it is in its ideal value (R33). -/
def signFactor (s : Bool) : ℚ := if s then -1 else 1

theorem idealValue_eq (w : BitVec c.W) :
    idealValue w = signFactor (negative w) * 10 ^ exponent w * mantissa w / c.MM := rfl

theorem signFactor_not (s : Bool) : signFactor (!s) = -signFactor s := by cases s <;> simp [signFactor]

theorem signFactor_xor (s t : Bool) : signFactor (s ^^ t) = signFactor s * signFactor t := by
  cases s <;> cases t <;> simp [signFactor]

theorem abs_signFactor (s : Bool) : |signFactor s| = 1 := by cases s <;> simp [signFactor]

theorem signed_eq_signFactor_mul (s : Bool) (m : Nat) : (signed s m : ℚ) = signFactor s * m := by
  cases s <;> simp [signed, signFactor]

/-- A sum's sign and magnitude are the sum (R142). -/
theorem signFactor_mul_natAbs (z : Int) : signFactor (decide (z < 0)) * z.natAbs = (z : ℚ) := by
  rw [← signed_eq_signFactor_mul]
  by_cases h : z < 0
  · simp [signed, h, abs_of_neg]
  · simp [signed, h, abs_of_nonneg (not_lt.1 h)]

section packed
variable {s : Bool} {e : Int} {m : Nat}

theorem exponentOutOfRange_eq_false_iff : exponentOutOfRange c e = false ↔ c.EMIN ≤ e ∧ e ≤ c.EMAX := by
  simp [exponentOutOfRange]

theorem mantissaOutOfRange_eq_false_iff : mantissaOutOfRange c m = false ↔ m ≤ c.MMAX := by
  simp [mantissaOutOfRange]

theorem toInt_ofInt_of_fits (h : c.EMIN ≤ e ∧ e ≤ c.EMAX) : (BitVec.ofInt c.E e).toInt = e := by
  obtain ⟨hmin, hmax⟩ := h
  simp only [Config.EMIN, Config.EMAX] at hmin hmax
  push_cast at hmin hmax
  have hE : 0 < c.E := by have := c.two_le_E; omega
  exact BitVec.toInt_ofInt_eq_self hE hmin (by omega)

theorem toNat_ofNat_of_fits (h : m ≤ c.MMAX) : (BitVec.ofNat c.M m).toNat = m :=
  Nat.mod_eq_of_lt (Nat.lt_of_le_pred (by positivity) h)

/-- Without a flag, packing keeps every field (R63, R153). -/
theorem fields_packed_of_no_flag (h : (packed c s e m).st = 0) :
    negative (packed c s e m).r = s ∧ exponent (packed c s e m).r = e ∧ mantissa (packed c s e m).r = m := by
  rw [packed_eq] at h ⊢
  obtain ⟨hexp, hmant, _⟩ := (status_eq_zero_iff ..).1 h
  rw [exponentOutOfRange_eq_false_iff] at hexp
  rw [mantissaOutOfRange_eq_false_iff] at hmant
  exact ⟨negative_cfWord .., (exponent_cfWord ..).trans (toInt_ofInt_of_fits hexp),
    (mantissa_cfWord ..).trans (toNat_ofNat_of_fits hmant)⟩

theorem idealValue_packed (h : (packed c s e m).st = 0) :
    idealValue (packed c s e m).r = signFactor s * 10 ^ e * m / c.MM := by
  obtain ⟨hs, he, hm⟩ := fields_packed_of_no_flag h
  rw [idealValue_eq, hs, he, hm]

end packed

theorem idealValue_flipSign (w : BitVec c.W) : idealValue (flipSign w) = -idealValue w := by
  simp [idealValue_eq, signFactor_not, neg_div]

/-- At equal exponents no mantissa is shifted (R142). -/
theorem addResponse_of_exponent_eq {a b : BitVec c.W} (h : exponent a = exponent b) :
    addResponse c a b =
      let sum := signed (negative a) (mantissa a) + signed (negative b) (mantissa b)
      packed c (sum < 0) (exponent b) sum.natAbs := by
  simp [addResponse, fields_eq, h]

theorem mulResponse_eq (a b : BitVec c.W) :
    mulResponse c a b =
      packed c (negative a ^^ negative b) (exponent a + exponent b) (mantissa a * mantissa b / c.MM) := by
  simp [mulResponse, fields_eq]

theorem rcpaResponse_eq (w : BitVec c.W) : rcpaResponse c w = packed c (negative w) (-exponent w) (mantissa w) := by
  simp [rcpaResponse, fields_eq]

theorem idealValue_mul (a b : BitVec c.W) :
    idealValue a * idealValue b = signFactor (negative a ^^ negative b) * 10 ^ (exponent a + exponent b) *
      ((mantissa a * mantissa b : Nat) / c.MM : ℚ) / c.MM := by
  rw [idealValue_eq, idealValue_eq, signFactor_xor, zpow_add₀ (by norm_num)]
  push_cast
  ring

/-- The magnitude of a value written with sign, decimal exponent and a mantissa that is not negative. -/
theorem abs_signFactor_mul (s : Bool) (e : Int) {q : ℚ} (hq : 0 ≤ q) :
    |signFactor s * 10 ^ e * q / c.MM| = 10 ^ e / c.MM * q := by
  have hMM := c.MM_pos
  rw [abs_div, abs_mul, abs_mul, abs_signFactor, abs_of_nonneg hq, abs_of_pos hMM, abs_of_pos (by positivity)]
  ring

end ideal

/-- Settles O55: the packed sum, its sign put back, is the sum of the signed mantissas. -/
theorem addOfEqualExponentsAddsIdealValues : Obligations.AddOfEqualExponentsAddsIdealValues := by
  intro c a b he hst
  rw [addResponse_of_exponent_eq he] at hst ⊢
  rw [idealValue_packed hst, idealValue_eq a, idealValue_eq b, mul_right_comm, signFactor_mul_natAbs, he]
  push_cast [signed_eq_signFactor_mul]
  ring

/-- Settles O56: MUL truncates the product of the mantissas over the multiplier to an integer, at the exponent of the product. -/
theorem mulWithoutFlagMultipliesIdealValues : Obligations.MulWithoutFlagMultipliesIdealValues := by
  intro c a b hst
  have hMM := c.MM_pos
  have hunit : (0 : ℚ) < 10 ^ (exponent a + exponent b) / c.MM := by positivity
  rw [mulResponse_eq] at hst ⊢
  rw [idealValue_packed hst, idealValue_mul, abs_signFactor_mul _ _ (by positivity), abs_signFactor_mul _ _ (by positivity)]
  generalize mantissa a * mantissa b = product
  refine ⟨?_, ?_, fun hdvd => ?_⟩
  · exact mul_le_mul_of_nonneg_left Nat.cast_div_le hunit.le
  · have hfloor : (product / c.MM : ℚ) < (product / c.MM : Nat) + 1 := by
      rw [← Nat.floor_div_eq_div (K := ℚ)]
      exact Nat.lt_floor_add_one _
    rw [← mul_sub]
    exact mul_lt_of_lt_one_right hunit (by linarith)
  · rw [Nat.cast_div hdvd hMM.ne']

/-- Settles O57: NEG changes the sign alone, and RCPA without a flag the exponent alone, from `e` to `e - 2 e`. -/
theorem negAndRcpaOnIdealValues : Obligations.NegAndRcpaOnIdealValues := by
  refine fun c w => ⟨idealValue_flipSign w, fun hst => ?_⟩
  have hexp : (10 : ℚ) ^ (-exponent w) = 10 ^ exponent w / 10 ^ (2 * exponent w) := by
    rw [← zpow_sub₀ (by norm_num)]
    congr 1
    ring
  rw [rcpaResponse_eq] at hst ⊢
  rw [idealValue_packed hst, idealValue_eq, hexp]
  ring

end Sys2Proof.Machine
end

section
/-! SUPPORT and PROOFS. The statement of 20_memory.md: the order of the commands and of their responses (R46, R201). -/

namespace Sys2Proof.Machine

open Sys2Proof.Safety

/-! ### What one edge does to the order of the responses -/

theorem accepts_eq_takes (s : State) : s.accepts = takes s.edge := by
  simp [State.accepts, State.cmdReady, takes, Bool.and_assoc]

/-- Without reset, a delivery moves the oldest response in flight to the end of what is received, and drops nothing. -/
theorem received_append_inFlight_finishEdge {s : State} (hrst : s.edge.rst = false) :
    s.finishEdge.received ++ s.finishEdge.inFlight = s.received ++ s.inFlight := by
  rw [State.finishEdge_received, State.finishEdge_inFlight, hrst]
  cases s.delivers with
  | true => exact (List.append_assoc ..).trans (congrArg (s.received ++ ·) (List.take_append_drop 1 s.inFlight))
  | false => rfl

theorem step_adds_response_of_accepted {s : State} (hrst : s.edge.rst = false) :
    ∃ (inF : List (Response s.cfg)) (v : Bool) (got : List (Response s.cfg)),
      step s = .next ⟨s.cfg, s.host.tail, inF, v, got, if s.accepts then s.draw + 1 else s.draw⟩ ∧
      got ++ inF = s.received ++ s.inFlight ++ (if s.accepts then [transact s.cfg s.command s.draw] else []) := by
  cases hacc : s.accepts with
  | true =>
    refine ⟨_, _, _, step_of_accepts hacc, ?_⟩
    have hkept := received_append_inFlight_finishEdge (s := s.respond (transact s.cfg s.command s.draw)) hrst
    exact hkept.trans (List.append_assoc ..).symm
  | false =>
    refine ⟨_, _, _, step_of_not_accepts hacc, ?_⟩
    exact (received_append_inFlight_finishEdge hrst).trans (List.append_nil _).symm

/-! ### Runs -/

theorem run_succ_of_step {K : Host.Core} {s t : K.State} (n : Nat) (h : K.step s = .next t) :
    K.run (n + 1) s = K.run n t := by
  rw [Host.Core.run, h]

section responses
variable {c : Config}

/-- The responses to commands accepted one after the other, the first of them with this draw. -/
def responsesFrom (d : Nat) (ms : List (Command c)) : List (Response c) := ms.mapIdx fun k m => transact c m (d + k)

theorem responsesFrom_nil (d : Nat) : responsesFrom d ([] : List (Command c)) = [] := rfl

theorem responsesFrom_cons (d : Nat) (m : Command c) (ms : List (Command c)) :
    responsesFrom d (m :: ms) = transact c m d :: responsesFrom (d + 1) ms := by
  simp only [responsesFrom, List.mapIdx_cons, Nat.add_zero, Nat.add_assoc, Nat.add_comm 1]

/-- The first edge's command, if accepted, is answered first and uses up one draw. -/
theorem responsesFrom_acceptedCommands_cons (d : Nat) (e : Edge c) (es : List (Edge c)) :
    responsesFrom d (acceptedCommands (e :: es)) = (if takes e then [transact c e.cmd d] else []) ++
      responsesFrom (if takes e then d + 1 else d) (acceptedCommands es) := by
  cases h : takes e with
  | true => simp [acceptedCommands, h, responsesFrom_cons]
  | false => simp [acceptedCommands, h]

/-- By induction on the edges, for any responses and draw at the start: each edge adds the response of its command, if accepted. -/
theorem run_adds_responses_of_accepted (es : List (Edge c)) (hrst : ∀ e ∈ es, e.rst = false)
    (inF : List (Response c)) (v : Bool) (got : List (Response c)) (d : Nat) :
    ∃ (inF' : List (Response c)) (v' : Bool) (got' : List (Response c)) (d' : Nat),
      Host.Core.run Sys2Proof.core es.length (⟨c, es, inF, v, got, d⟩ : State) = .next ⟨c, [], inF', v', got', d'⟩ ∧
      got' ++ inF' = got ++ inF ++ responsesFrom d (acceptedCommands es) := by
  induction es generalizing inF v got d with
  | nil => exact ⟨inF, v, got, d, rfl, (List.append_nil _).symm⟩
  | cons e es ih =>
    obtain ⟨hfirst, hrest⟩ := List.forall_mem_cons.1 hrst
    obtain ⟨inF₁, v₁, got₁, hstep, hadded⟩ := step_adds_response_of_accepted (s := ⟨c, e :: es, inF, v, got, d⟩) hfirst
    rw [accepts_eq_takes] at hstep hadded
    obtain ⟨inF', v', got', d', hrun, hall⟩ := ih hrest inF₁ v₁ got₁ (if takes e then d + 1 else d)
    refine ⟨inF', v', got', d', (run_succ_of_step (K := Sys2Proof.core) es.length hstep).trans hrun, ?_⟩
    calc got' ++ inF'
        = got₁ ++ inF₁ ++ responsesFrom (if takes e then d + 1 else d) (acceptedCommands es) := hall
      _ = got ++ inF ++ (if takes e then [transact c e.cmd d] else []) ++
            responsesFrom (if takes e then d + 1 else d) (acceptedCommands es) :=
          congrArg (· ++ responsesFrom _ (acceptedCommands es)) hadded
      _ = got ++ inF ++ responsesFrom d (acceptedCommands (e :: es)) := by
          rw [responsesFrom_acceptedCommands_cons, List.append_assoc (got ++ inF)]

end responses

/-- Settles O16: an edge adds at most the response of its command, at the end, and a run is its edges one after the other. -/
theorem runAnswersAcceptedCommandsInOrder : Obligations.RunAnswersAcceptedCommandsInOrder :=
  ⟨fun _ hrst => step_adds_response_of_accepted hrst,
    fun s hrst => run_adds_responses_of_accepted s.host hrst s.inFlight s.rspValid s.received s.draw⟩

end Sys2Proof.Machine
end

section
/-! SUPPORT and PROOFS. The statements of 30_encoding.md: the header's fields and what they decode to (R56 to R60, R65), and the
lines of the assembler, decimal literals with the rounding they stand for among them (R70, R71; 41_decimalscale.md R101). -/

namespace Sys2Proof

/-! ### The two fields of a header (R56) -/

section fields
variable (n : WidthField) (op : BitVec 4)

@[simp] theorem opField_header : opField (header n op) = op := BitVec.extractLsb'_append_eq_right

@[simp] theorem nField_header : nField (header n op) = n := BitVec.extractLsb'_append_eq_left

end fields

theorem header_fields (h : Header) : header (nField h) (opField h) = h :=
  (BitVec.extractLsb'_append_extractLsb'_eq_extractLsb' rfl).trans (BitVec.extractLsb'_eq_self)

theorem header_ext {h h' : Header} (hn : nField h = nField h') (hop : opField h = opField h') : h = h' := by
  rw [← header_fields h, hn, hop, header_fields]

/-! ### The decoder and the encoder (R57 to R60) -/

/-- The operation codes of the four conversions (R57), for which alone the width field means anything (R59). -/
def IsConversionCode (op : BitVec 4) : Prop := 1 ≤ op.toNat ∧ op.toNat ≤ 4

theorem not_isConversionCode_iff {op : BitVec 4} : ¬ IsConversionCode op ↔ op.toNat = 0 ∨ 5 ≤ op.toNat := by
  unfold IsConversionCode
  omega

/-- What a header decodes to is a function of its operation code, and of its width for the conversions alone (R59). -/
theorem decode_congr {h h' : Header} (hop : opField h = opField h') (hn : IsConversionCode (opField h) → nField h = nField h') :
    decode h = decode h' := by
  by_cases hconv : IsConversionCode (opField h)
  · rw [header_ext (hn hconv) hop]
  · rw [not_isConversionCode_iff] at hconv
    unfold decode
    rw [← hop]
    split
    case h_2 | h_3 | h_4 | h_5 => omega
    all_goals rfl

theorem decode_encode (i : Instr) : decode (encode i) = .ok i := by
  cases i <;> simp [decode, encode]

theorem nField_encode {i : Instr} (h : ¬ IsConversionCode (opField (encode i))) : nField (encode i) = 0 := by
  cases i <;> simp_all [encode, IsConversionCode]

theorem opField_encode_of_decode {h : Header} {i : Instr} (hd : decode h = .ok i) : opField (encode i) = opField h := by
  unfold decode at hd
  split at hd
  case h_15 => cases hd
  all_goals
    rename_i hop
    cases hd
    exact (opField_header ..).trans (BitVec.eq_of_toNat_eq hop.symm)

theorem nField_encode_of_decode {h : Header} {i : Instr} (hd : decode h = .ok i) (hconv : IsConversionCode (opField h)) :
    nField (encode i) = nField h := by
  obtain ⟨hlo, hhi⟩ := hconv
  unfold decode at hd
  split at hd <;> cases hd
  case h_2 | h_3 | h_4 | h_5 => exact nField_header ..
  all_goals omega

/-- A header that decodes is its command's encoding, but for the width field where that is ignored (R59). -/
theorem encode_of_decode {h : Header} {i : Instr} (hd : decode h = .ok i)
    (hn : ¬ IsConversionCode (opField h) → nField h = 0) : encode i = h := by
  have hop := opField_encode_of_decode hd
  refine header_ext ?_ hop
  by_cases hconv : IsConversionCode (opField h)
  · exact nField_encode_of_decode hd hconv
  · rw [hn hconv, nField_encode (hop ▸ hconv)]

/-- The first 14 operation codes are commands (R57). -/
theorem exists_decode {h : Header} (hop : (opField h).toNat < 14) : ∃ i, decode h = .ok i := by
  unfold decode
  interval_cases (opField h).toNat <;> exact ⟨_, rfl⟩

/-- The last two operation codes are reserved (R60). -/
theorem decode_of_reserved {h : Header} (hop : 14 ≤ (opField h).toNat) : decode h = .error (.reservedOp (opField h)) := by
  have hlt : (opField h).toNat < 16 := (opField h).isLt
  unfold decode
  interval_cases (opField h).toNat <;> rfl

/-! ### How many headers are well-formed commands (R58, R65) -/

/-- Whether a header is a command that is valid by its header alone. -/
def isWellFormedCommand (h : Header) : Bool :=
  match decode h with
  | .ok i => i.wellFormed
  | .error _ => false

/-- Numbers below `16 * k` counted by their quotient and remainder. -/
theorem length_filter_range_sixteen_mul (p : Nat → Bool) (k : Nat) :
    ((List.range (16 * k)).filter p).length =
      ∑ n ∈ Finset.range k, ((List.range 16).filter fun j => p (16 * n + j)).length := by
  induction k with
  | zero => rfl
  | succ k ih =>
    rw [Finset.sum_range_succ, ← ih, Nat.mul_succ, List.range_add, List.filter_append, List.length_append, List.filter_map,
      List.length_map]
    rfl

theorem ofNat_eq_header (n : Nat) {j : Nat} (hj : j < 16) :
    BitVec.ofNat 11 (16 * n + j) = header (BitVec.ofNat 7 n) (BitVec.ofNat 4 j) := by
  apply BitVec.eq_of_toNat_eq
  simp only [header, BitVec.toNat_append, BitVec.toNat_ofNat, Nat.mod_eq_of_lt hj,
    ← Nat.shiftLeft_add_eq_or_of_lt (i := 4) hj]
  omega

theorem isNone_checkUnsigned (n : WidthField) : (checkUnsigned n).isNone = Machine.legalUnsigned n := by
  rw [Bool.eq_iff_iff]
  simp only [checkUnsigned, Machine.legalUnsigned, Bool.and_eq_true, decide_eq_true_eq]
  split_ifs <;> simp <;> omega

theorem isNone_checkSigned (n : WidthField) : (checkSigned n).isNone = Machine.legalSigned n := by
  rw [Bool.eq_iff_iff]
  simp only [checkSigned, Machine.legalSigned, Bool.and_eq_true, decide_eq_true_eq]
  split_ifs <;> simp <;> omega

/-- With one width, the ten commands without a width operand are well-formed, and the two conversions of either kind where that kind
takes the width. -/
theorem length_filter_isWellFormedCommand (n : WidthField) :
    ((List.range 16).filter fun j => isWellFormedCommand (header n (BitVec.ofNat 4 j))).length =
      10 + 2 * (Machine.legalUnsigned n).toNat + 2 * (Machine.legalSigned n).toNat := by
  have hcodes : List.range 16 = [0, 1, 2, 3, 4, 5, 6, 7, 8, 9, 10, 11, 12, 13, 14, 15] := rfl
  rw [hcodes]
  cases hu : Machine.legalUnsigned n <;> cases hs : Machine.legalSigned n <;>
    simp [isWellFormedCommand, decode, Instr.wellFormed, Instr.check, isNone_checkUnsigned, isNone_checkSigned, hu, hs]

/-- `1280 + 2 * 64 + 2 * 63` (R65). -/
theorem length_filter_isWellFormedCommand_range :
    ((List.range 2048).filter fun w => isWellFormedCommand (BitVec.ofNat 11 w)).length = 1534 := by
  have hwidth (n : Nat) : ((List.range 16).filter fun j => isWellFormedCommand (BitVec.ofNat 11 (16 * n + j))).length =
      10 + 2 * (Machine.legalUnsigned (BitVec.ofNat 7 n)).toNat + 2 * (Machine.legalSigned (BitVec.ofNat 7 n)).toNat := by
    rw [← length_filter_isWellFormedCommand]
    exact congrArg List.length (List.filter_congr fun j hj => by rw [ofNat_eq_header n (List.mem_range.1 hj)])
  rw [length_filter_range_sixteen_mul _ 128, Finset.sum_congr rfl fun n _ => hwidth n]
  decide +kernel

end Sys2Proof

namespace Sys2Proof.Machine

open Sys2Proof.Safety

/-! ### The word on the header port, and what its command is answered with (R57, R60, R65) -/

theorem headerOfWord_toNat {nbits : Nat} (h : Header) (hbits : 11 ≤ nbits) : headerOfWord nbits h.toNat = h := by
  have hlt : h.toNat < 2 ^ nbits := h.isLt.trans_le (Nat.pow_le_pow_right two_pos hbits)
  rw [headerOfWord, Nat.mod_eq_of_lt hlt, BitVec.ofNat_toNat, BitVec.setWidth_eq]

theorem transact_of_decode {c : Config} {m : Command c} {i : Instr} (d : Nat) (h : decode m.h = .ok i) :
    transact c m d = response c i m d := by
  rw [transact, h]

theorem transact_of_reserved {c : Config} {m : Command c} (d : Nat) (h : 14 ≤ (opField m.h).toNat) :
    transact c m d = ⟨0, 0, 0b1000#4⟩ := by
  rw [transact, decode_of_reserved h]
  rfl

/-- Settles O1: the word on the header port is the encoding, which decodes, and every instruction runs to a next state. -/
theorem encodedCommandDecodesAndRunsNext : Obligations.EncodedCommandDecodesAndRunsNext := by
  intro i s nbits hbits
  have hword := headerOfWord_toNat (encode i) hbits
  have hport : decode (s.withFetchWord nbits (encode i).toNat).command.h = .ok i := by
    rw [← State.portH, State.withFetchWord_portH, hword, decode_encode]
  refine ⟨by rw [decodeTableWord, hword, decode_encode], _, exec_eq_respond i _, ?_⟩
  rw [step_of_accepts (State.withFetchWord_accepts s nbits _), transact_of_decode _ hport]

/-- Settles O12: the invalid response is the pure function's answer to a reserved code. -/
theorem reservedOpcodeAnswersInvalid : Obligations.ReservedOpcodeAnswersInvalid := by
  intro s hacc hop
  rw [step_of_accepts hacc, transact_of_reserved s.draw hop]
  rfl

/-! ### The header of an assembler line (R70) -/

theorem assemble_some_eq_some_iff {name : String} {n : Nat} {h : Header} :
    assemble name (some n) = some h ↔
      ∃ op, opcodeOf name = some op ∧ (1 ≤ op ∧ op ≤ 4 ∧ n < 128) ∧ header (BitVec.ofNat 7 n) (BitVec.ofNat 4 op) = h := by
  cases hop : opcodeOf name <;> simp [assemble, hop]

theorem assemble_none_eq_some_iff {name : String} {h : Header} :
    assemble name none = some h ↔
      ∃ op, opcodeOf name = some op ∧ ¬(1 ≤ op ∧ op ≤ 4) ∧ header 0 (BitVec.ofNat 4 op) = h := by
  cases hop : opcodeOf name <;> simp [assemble, hop]

/-- Assemblers emit `N = 0` where the command has no width operand (R59). -/
theorem nField_of_assemble {name : String} {width : Option Nat} {h : Header} (ha : assemble name width = some h)
    (hconv : ¬ IsConversionCode (opField h)) : nField h = 0 := by
  cases width with
  | none =>
    obtain ⟨op, _, _, rfl⟩ := assemble_none_eq_some_iff.1 ha
    exact nField_header ..
  | some n =>
    obtain ⟨op, _, ⟨hlo, hhi, _⟩, rfl⟩ := assemble_some_eq_some_iff.1 ha
    rw [opField_header] at hconv
    refine absurd ?_ hconv
    rw [IsConversionCode, BitVec.toNat_ofNat]
    omega

/-- Settles O2: the width field is read for the four conversions alone, by the decoder, the encoder and the assembler. -/
theorem widthFieldIgnoredOutsideCodec : Obligations.WidthFieldIgnoredOutsideCodec := by
  refine ⟨fun h h' hop hcode => ?_, fun i hcode => ?_, fun name width h ha hcode => ?_⟩
  all_goals rw [← not_isConversionCode_iff] at hcode
  · exact decode_congr hop fun hconv => absurd hconv hcode
  · exact nField_encode hcode
  · exact nField_of_assemble ha hcode

/-- Settles O4: the decoder has a case for each code, and the count is a sum over the widths. -/
theorem everyHeaderHasOneMeaning : Obligations.EveryHeaderHasOneMeaning := by
  refine ⟨fun h => ?_, length_filter_isWellFormedCommand_range⟩
  rcases le_or_gt 14 (opField h).toNat with hop | hop
  · exact .inl ⟨hop, decode_of_reserved hop⟩
  · obtain ⟨i, hi⟩ := exists_decode hop
    exact .inr ⟨hop, i, hi, opField_encode_of_decode hi⟩

/-! ### Rounding to nearest, ties to even (R101) -/

/-- Rounding to an integer is a half away only in a tie, and then gives an even one. -/
theorem nearestEven_even_of_half {num den : Nat} (hd : 0 < den) (h : |(nearestEven num den : ℚ) - num / den| = 1 / 2) :
    nearestEven num den % 2 = 0 := by
  have hdq : (0 : ℚ) < den := by exact_mod_cast hd
  have hquot : (num : ℚ) = den * (num / den : Nat) + (num % den : Nat) := by exact_mod_cast (Nat.div_add_mod num den).symm
  rw [hquot, add_div, mul_div_cancel_left₀ _ hdq.ne'] at h
  have hr : (0 : ℚ) ≤ (num % den : Nat) / den := by positivity
  unfold nearestEven at h ⊢
  dsimp only at h ⊢
  split_ifs at h ⊢ with hlow hhigh
  · have hhalf : ((num % den : Nat) : ℚ) / den < 1 / 2 := by
      rw [div_lt_div_iff₀ hdq two_pos]
      exact_mod_cast (by omega : num % den * 2 < 1 * den)
    rw [sub_add_cancel_left, abs_neg, abs_of_nonneg hr] at h
    exact absurd h hhalf.ne
  · have hhalf : 1 / 2 < ((num % den : Nat) : ℚ) / den := by
      rw [div_lt_div_iff₀ two_pos hdq]
      exact_mod_cast (by omega : 1 * den < num % den * 2)
    have hone : ((num % den : Nat) : ℚ) / den < 1 := by
      rw [div_lt_one hdq]
      exact_mod_cast Nat.mod_lt num hd
    rw [Nat.cast_succ, add_sub_add_left_eq_sub, abs_of_pos (sub_pos.2 hone)] at h
    linarith
  · omega

theorem realValue_eq (s : Bool) (m : Nat) (e : Int) : realValue s m e = signFactor s * (m * 2 ^ e) := mul_assoc ..

theorem realValue_xor (s t : Bool) (m : Nat) (e : Int) : realValue (s ^^ t) m e = signFactor s * realValue t m e := by
  rw [realValue_eq, realValue_eq, signFactor_xor, mul_assoc]

theorem signFactor_mul_self (s : Bool) : signFactor s * signFactor s = 1 := by cases s <;> simp [signFactor]

theorem signFactor_ne_zero (s : Bool) : signFactor s ≠ 0 := left_ne_zero_of_mul_eq_one (signFactor_mul_self s)

theorem abs_signFactor_mul_eq (s : Bool) (q : ℚ) : |signFactor s * q| = |q| := by rw [abs_mul, abs_signFactor, one_mul]

theorem abs_sub_signFactor_mul (s : Bool) (x q : ℚ) : |x - signFactor s * q| = |signFactor s * x - q| := by
  rw [← abs_signFactor_mul_eq s, mul_sub, ← mul_assoc (signFactor s) (signFactor s), signFactor_mul_self, one_mul]

theorem abs_realValue (s : Bool) (m : Nat) (e : Int) : |realValue s m e| = m * 2 ^ e := by
  rw [realValue_eq, abs_signFactor_mul_eq, abs_of_nonneg (by positivity)]

theorem two_pow_precision_mul (f : NF) (e : Int) : (2 : ℚ) ^ precision f * 2 ^ e = 2 ^ (precision f - 1) * 2 ^ (e + 1) := by
  rw [← pow_sub_one_mul (by cases f <;> decide : precision f ≠ 0), zpow_add_one₀ two_ne_zero, mul_assoc, mul_comm 2]

section rounding
variable (f : NF) {num den : Nat}

/-- `num / den` in units of the last place that it is rounded to. -/
def lastPlaces (num den : Nat) : ℚ := num / den * 2 ^ (-roundingExp f num den)

theorem lastPlaces_mul (num den : Nat) : lastPlaces f num den * 2 ^ roundingExp f num den = num / den := by
  rw [lastPlaces, mul_assoc, ← zpow_add₀ two_ne_zero, neg_add_cancel, zpow_zero, mul_one]

/-- The magnitude that rounding chooses where it does not overflow, before the carry is moved to the exponent. -/
def roundedMagnitude (num den : Nat) : ℚ := roundingInt f num den * 2 ^ roundingExp f num den

theorem roundingInt_close (hd : 0 < den) : |(roundingInt f num den : ℚ) - lastPlaces f num den| ≤ 1 / 2 := by
  rw [lastPlaces, ← roundingInt_quotient f hd]
  exact nearestEven_close _ (by positivity)

theorem roundingInt_even_of_half (hd : 0 < den) (h : |(roundingInt f num den : ℚ) - lastPlaces f num den| = 1 / 2) :
    roundingInt f num den % 2 = 0 := by
  rw [lastPlaces, ← roundingInt_quotient f hd] at h
  exact nearestEven_even_of_half (by positivity) h

/-- Unless the exponent of the last place is the least, the quotient has as many last places as its leading one stands for. -/
theorem le_lastPlaces (hn : 0 < num) (hd : 0 < den) (he : roundingExp f num den ≠ minExp f) :
    (2 : ℚ) ^ (precision f - 1) ≤ lastPlaces f num den := by
  have hexp : floorLog2 num den = roundingExp f num den + (precision f - 1 : Nat) := by
    rw [roundingExp] at he ⊢
    omega
  calc (2 : ℚ) ^ (precision f - 1)
      = 2 ^ floorLog2 num den * 2 ^ (-roundingExp f num den) := by
        rw [← zpow_add₀ two_ne_zero, hexp, ← zpow_natCast]
        congr 1
        ring
    _ ≤ lastPlaces f num den := mul_le_mul_of_nonneg_right (floorLog2_spec hn hd).1 (by positivity)

/-- No whole number of last places is nearer than the chosen one, and one as near leaves it even. -/
theorem roundingInt_nearest (hd : 0 < den) (z : Int) :
    |roundingInt f num den - lastPlaces f num den| ≤ |z - lastPlaces f num den| ∧
      (|roundingInt f num den - lastPlaces f num den| = |z - lastPlaces f num den| → z ≠ roundingInt f num den →
        roundingInt f num den % 2 = 0) := by
  have hclose := roundingInt_close f (num := num) hd
  by_cases hz : z = roundingInt f num den
  · simp [hz]
  have hapart : (1 : ℚ) ≤ |z - (roundingInt f num den : ℚ)| := by
    exact_mod_cast Int.one_le_abs (sub_ne_zero.2 hz)
  have htri := abs_sub_le (z : ℚ) (lastPlaces f num den) (roundingInt f num den)
  rw [abs_sub_comm (lastPlaces f num den)] at htri
  exact ⟨by linarith, fun heq _ => roundingInt_even_of_half f hd (by linarith)⟩

variable {f}

/-- A value of the format is a whole number of last places, or smaller than anything rounded to that place. -/
theorem exists_lastPlaces_of_fCanonical {t : Bool} {n : Nat} {g : Int} (hw : fCanonical f (.fin t n g)) (e : Int) :
    (∃ z : Int, realValue t n g = z * 2 ^ e) ∨ (e ≠ minExp f ∧ |realValue t n g| < 2 ^ (precision f - 1) * 2 ^ e) := by
  obtain ⟨hn, hg, _, _⟩ := hw
  rcases le_or_gt e g with he | he
  · obtain ⟨k, rfl⟩ := Int.le.dest he
    refine .inl ⟨(if t then -1 else 1) * n * 2 ^ k, ?_⟩
    rw [realValue, zpow_add₀ two_ne_zero, zpow_natCast]
    push_cast
    ring
  · refine .inr ⟨by omega, ?_⟩
    calc |realValue t n g|
        = n * 2 ^ g := abs_realValue ..
      _ < 2 ^ precision f * 2 ^ g := by gcongr; exact_mod_cast hn
      _ = 2 ^ (precision f - 1) * 2 ^ (g + 1) := two_pow_precision_mul f g
      _ ≤ 2 ^ (precision f - 1) * 2 ^ e := by
        gcongr
        · norm_num
        · omega

/-- Rounding chooses the value of the format that is nearest, and where another is as near, an even significand. -/
theorem roundedMagnitude_nearest (hn : 0 < num) (hd : 0 < den) {t : Bool} {n : Nat} {g : Int}
    (hw : fCanonical f (.fin t n g)) :
    |roundedMagnitude f num den - num / den| ≤ |realValue t n g - num / den| ∧
      (|roundedMagnitude f num den - num / den| = |realValue t n g - num / den| →
        realValue t n g ≠ roundedMagnitude f num den → roundingInt f num den % 2 = 0) := by
  have hpos : (0 : ℚ) < 2 ^ roundingExp f num den := by positivity
  have hunits (x : ℚ) : |x * 2 ^ roundingExp f num den - num / den| =
      |x - lastPlaces f num den| * 2 ^ roundingExp f num den := by
    rw [← lastPlaces_mul f, ← sub_mul, abs_mul, abs_of_pos hpos]
  rcases exists_lastPlaces_of_fCanonical hw (roundingExp f num den) with ⟨z, hz⟩ | ⟨he, hsmall⟩
  · obtain ⟨hle, heven⟩ := roundingInt_nearest f (num := num) hd z
    rw [roundedMagnitude, hz, hunits, hunits]
    refine ⟨by gcongr, fun heq hne => heven (mul_right_cancel₀ hpos.ne' heq) fun hzk => hne ?_⟩
    rw [hzk, Int.cast_natCast]
  · have hlead := le_lastPlaces f hn hd he
    have hle := (roundingInt_nearest f (num := num) hd (2 ^ (precision f - 1))).1
    have hfar : |roundedMagnitude f num den - num / den| < |realValue t n g - num / den| := by
      calc |roundedMagnitude f num den - num / den|
          ≤ (lastPlaces f num den - 2 ^ (precision f - 1)) * 2 ^ roundingExp f num den := by
            rw [roundedMagnitude, hunits]
            gcongr
            push_cast at hle
            rwa [abs_sub_comm (2 ^ _), abs_of_nonneg (sub_nonneg.2 hlead)] at hle
        _ < num / den - realValue t n g := by
            rw [sub_mul, lastPlaces_mul]
            linarith [le_abs_self (realValue t n g)]
        _ ≤ |realValue t n g - num / den| := by
            rw [abs_sub_comm]
            exact le_abs_self _
    exact ⟨hfar.le, fun heq => absurd heq hfar.ne⟩

/-- From here on a magnitude is rounded to an infinity: half a last place above the largest finite value (R101). -/
def overflowThreshold (f : NF) : ℚ := (2 ^ precision f - 1 / 2) * 2 ^ maxExp f

/-- Rounding to a finite value stays below the threshold: at the last significand, which is odd, a tie is rounded up. -/
theorem quotient_lt_overflowThreshold (hn : 0 < num) (hd : 0 < den) (he : roundingExp f num den ≤ maxExp f)
    (hcarry : roundingInt f num den = 2 ^ precision f → roundingExp f num den + 1 ≤ maxExp f) :
    (num : ℚ) / den < overflowThreshold f := by
  have ⟨hlow, hhigh⟩ := abs_le.1 (roundingInt_close f (num := num) hd)
  have hp : (8 : ℚ) ≤ 2 ^ precision f := by cases f <;> norm_num [precision]
  rw [← lastPlaces_mul f, overflowThreshold]
  by_cases hk : roundingInt f num den = 2 ^ precision f
  · rw [hk] at hlow
    push_cast at hlow
    calc lastPlaces f num den * 2 ^ roundingExp f num den
        < ((2 ^ precision f - 1 / 2) * 2) * 2 ^ roundingExp f num den := by gcongr; linarith
      _ = (2 ^ precision f - 1 / 2) * 2 ^ (roundingExp f num den + 1) := by rw [zpow_add_one₀ two_ne_zero]; ring
      _ ≤ (2 ^ precision f - 1 / 2) * 2 ^ maxExp f := by
        gcongr
        · linarith
        · norm_num
        · exact hcarry hk
  · have hfits : (roundingInt f num den : ℚ) + 1 ≤ 2 ^ precision f := by
      exact_mod_cast Nat.lt_of_le_of_ne (roundingInt_le f hn hd) hk
    have hlt : lastPlaces f num den < 2 ^ precision f - 1 / 2 := by
      refine lt_of_le_of_ne (by linarith) fun heq => ?_
      have hlast : roundingInt f num den + 1 = 2 ^ precision f := by
        exact_mod_cast (by linarith : (roundingInt f num den : ℚ) + 1 = 2 ^ precision f)
      have hodd := roundingInt_even_of_half f (num := num) hd (by rw [abs_eq (by norm_num)]; right; linarith)
      cases f <;> norm_num [precision] at hlast <;> omega
    calc lastPlaces f num den * 2 ^ roundingExp f num den
        < (2 ^ precision f - 1 / 2) * 2 ^ roundingExp f num den := by gcongr
      _ ≤ (2 ^ precision f - 1 / 2) * 2 ^ maxExp f := by
        gcongr
        · linarith
        · norm_num

theorem overflowThreshold_le_quotient (hn : 0 < num) (hd : 0 < den)
    (h : if roundingInt f num den = 2 ^ precision f then maxExp f < roundingExp f num den + 1
      else maxExp f < roundingExp f num den) :
    overflowThreshold f ≤ (num : ℚ) / den := by
  have ⟨hlow, hhigh⟩ := abs_le.1 (roundingInt_close f (num := num) hd)
  rw [← lastPlaces_mul f, overflowThreshold]
  split_ifs at h with hk
  · rw [hk] at hhigh
    push_cast at hhigh
    have hp : (8 : ℚ) ≤ 2 ^ precision f := by cases f <;> norm_num [precision]
    gcongr
    · linarith
    · linarith
    · norm_num
    · omega
  · have hmax : minExp f < maxExp f := by cases f <;> decide
    have hlead := le_lastPlaces f hn hd (by omega)
    calc ((2 : ℚ) ^ precision f - 1 / 2) * 2 ^ maxExp f
        ≤ 2 ^ precision f * 2 ^ maxExp f := by gcongr; norm_num
      _ = 2 ^ (precision f - 1) * 2 ^ (maxExp f + 1) := two_pow_precision_mul f _
      _ ≤ lastPlaces f num den * 2 ^ roundingExp f num den := by
        have hnext : maxExp f + 1 ≤ roundingExp f num den := h
        gcongr
        · exact le_trans (by positivity) hlead
        · norm_num

/-- A finite value of the format is what a quotient is rounded to if it is the chosen number of last places. -/
theorem roundsTo_fin (hn : 0 < num) (hd : 0 < den) {s : Bool} {m : Nat} {e : Int} (hcanon : fCanonical f (.fin s m e))
    (hvalue : m * 2 ^ e = roundedMagnitude f num den)
    (heven : roundingInt f num den % 2 = 0 → m % 2 = 0)
    (hfits : (num : ℚ) / den < overflowThreshold f) :
    RoundsTo f (signFactor s * (num / den)) (.fin s m e) := by
  have hself : signFactor s * realValue s m e = roundedMagnitude f num den := by
    rw [realValue_eq, ← mul_assoc, signFactor_mul_self, one_mul, hvalue]
  refine ⟨hcanon, ?_, fun t n g hw => ?_⟩
  · rwa [abs_signFactor_mul_eq, abs_of_nonneg (by positivity)]
  · obtain ⟨hle, htie⟩ := roundedMagnitude_nearest hn hd (t := s ^^ t) hw
    rw [realValue_xor, ← hself] at hle htie
    rw [abs_sub_signFactor_mul, abs_sub_signFactor_mul]
    exact ⟨hle, fun heq hne => heven (htie heq fun hsame => hne (mul_left_cancel₀ (signFactor_ne_zero s) hsame))⟩

/-- Rounding is to nearest, ties to even (R101). -/
theorem roundsTo_fRound (f : NF) (s : Bool) (num : Nat) {den : Nat} (hd : 0 < den) :
    RoundsTo f (signFactor s * (num / den)) (fRound f s num den) := by
  have hcanon := fCanonical_fRound f s num hd
  rcases fRound_cases f s num den with ⟨hn, h⟩ | ⟨hn, hk, he, h⟩ | ⟨hn, hk, he, h⟩ | ⟨hn, h, hover⟩
  all_goals rw [h] at hcanon ⊢
  · refine ⟨hcanon, ?_, fun t n g _ => ?_⟩
    · rw [hn, Nat.cast_zero, zero_div, mul_zero, abs_zero]
      cases f <;> norm_num [precision, maxExp]
    · simp +contextual [hn, realValue]
  · exact roundsTo_fin (Nat.pos_of_ne_zero hn) hd hcanon rfl id
      (quotient_lt_overflowThreshold (Nat.pos_of_ne_zero hn) hd he fun hcarry => absurd hcarry hk)
  · refine roundsTo_fin (Nat.pos_of_ne_zero hn) hd hcanon ?_ (fun _ => ?_)
      (quotient_lt_overflowThreshold (Nat.pos_of_ne_zero hn) hd (by omega) fun _ => he)
    · rw [roundedMagnitude, hk, Nat.cast_pow, Nat.cast_pow]
      exact (two_pow_precision_mul f _).symm
    · cases f <;> norm_num [precision]
  · rw [RoundsTo, abs_signFactor_mul_eq, abs_of_nonneg (by positivity)]
    exact overflowThreshold_le_quotient (Nat.pos_of_ne_zero hn) hd hover

end rounding

/-! ### Names (R57, R70, R71) -/

theorem opcodeOf_namedOpcodes : ∀ p ∈ namedOpcodes, opcodeOf p.1 = some p.2 := by decide +kernel

theorem namesAssemble : NamesAssemble := by
  intro p hp
  have hop := opcodeOf_namedOpcodes p hp
  split_ifs with hcode
  · obtain ⟨hlo, hhi⟩ := hcode
    exact fun n hn => assemble_some_eq_some_iff.2 ⟨p.2, hop, ⟨hlo, hhi, hn⟩, rfl⟩
  · exact assemble_none_eq_some_iff.2 ⟨p.2, hop, hcode, rfl⟩

/-! ### Lines (R70) -/

section lines
variable {c : Config} {env : List (String × Value c)} {free : BitVec 64} {name : String} {width : Option Nat} {h : Header}
  {i : Instr} {operands : List Operand} {m : Command c}

/-- An assembled header is its command's encoding: where the width is ignored, it is zero (R59). -/
theorem encode_of_assemble (ha : assemble name width = some h) (hd : decode h = .ok i) : encode i = h :=
  encode_of_decode hd (nField_of_assemble ha)

/-- A line without a width gives a header without one (R70). -/
theorem header_zero_of_assemble (ha : assemble name none = some h) : header 0 (opField h) = h := by
  obtain ⟨op, _, _, rfl⟩ := assemble_none_eq_some_iff.1 ha
  rw [opField_header]

/-- A line that gives a header has its operands read as those of the header's command. -/
theorem assembleLine_of_assemble (ha : assemble name width = some h) (hd : decode h = .ok i) :
    assembleLine env free name width operands = assembleOperands env free i operands := by
  simp only [assembleLine, ha, hd]

theorem assembleLine_eq_some_iff :
    assembleLine env free name width operands = some m ↔
      ∃ h i, assemble name width = some h ∧ decode h = .ok i ∧ assembleOperands env free i operands = some m := by
  constructor
  · intro hm
    unfold assembleLine at hm
    split at hm
    · cases hm
    · split at hm
      · exact ⟨_, _, ‹_›, ‹_›, hm⟩
      · cases hm
  · rintro ⟨h, i, ha, hd, hm⟩
    rwa [assembleLine_of_assemble ha hd]

theorem assembleLine_of_encode (i : Instr) {operands : List Operand} (ha : assemble name width = some (encode i)) :
    assembleLine env free name width operands = assembleOperands env free i operands :=
  assembleLine_of_assemble ha (decode_encode i)

/-- A valid command without a CF operand, ZERO apart, reads its scalar operand (R36, R58). -/
theorem readsX_ne_zero (hi : i.wellFormed = true) (ha : readsA i = false) (hz : i ≠ .zero) : readsX c i ≠ 0 := by
  cases i with
  | zero => exact absurd rfl hz
  | b2u n | b2s n =>
    intro hn
    have hn : n.toNat = 0 := hn
    simp [Instr.wellFormed, Instr.check, checkUnsigned, checkSigned, hn] at hi
  | u2b n | s2b n => exact Nat.succ_ne_zero 63
  | dexp | enc => cases hnf : c.nf <;> simp [readsX, hnf]
  | dec | neg | rcpa | add | sub | mul | diva => cases ha

/-- The operands' command has the instruction's header, and zero on the ports that the instruction does not read. -/
theorem ports_of_assembleOperands (hm : assembleOperands env free i operands = some m) :
    m.h = encode i ∧ (readsA i = false → m.a = 0) ∧ (readsB i = false → m.b = 0) ∧
      (i.wellFormed = true → readsX c i = 0 → m.x = 0) := by
  unfold assembleOperands at hm
  split at hm
  case h_1 =>
    cases hm
    exact ⟨rfl, fun _ => rfl, fun _ => rfl, fun _ _ => rfl⟩
  case h_2 | h_3 | h_4 | h_5 | h_6 | h_7 =>
    obtain ⟨x, _, rfl⟩ := Option.map_eq_some_iff.1 hm
    exact ⟨rfl, fun _ => rfl, fun _ => rfl, fun hi hx => absurd hx (readsX_ne_zero hi rfl nofun)⟩
  case h_8 | h_9 | h_10 =>
    obtain ⟨a, _, rfl⟩ := Option.map_eq_some_iff.1 hm
    exact ⟨rfl, nofun, fun _ => rfl, fun _ _ => rfl⟩
  case h_11 | h_12 | h_13 | h_14 =>
    obtain ⟨a, _, hm⟩ := Option.bind_eq_some_iff.1 hm
    obtain ⟨b, _, rfl⟩ := Option.map_eq_some_iff.1 hm
    exact ⟨rfl, nofun, nofun, fun _ _ => rfl⟩
  case h_15 => cases hm

end lines

/-- A header that a line gives is put together from its fields, the width zero where none is written, and its command's operands
are read in port order. -/
theorem operandsStandInPortOrder : OperandsStandInPortOrder := by
  intro c env free name h o q
  refine ⟨fun n ha => ?_, fun ha => ?_⟩
  · have hh {op : BitVec 4} (hop : opField h = op) : header (nField h) op = h := hop ▸ header_fields h
    generalize nField h = k at hh ⊢
    refine ⟨?_, fun hop => ?_, fun hop => ?_⟩
    · rintro (hop | hop) <;> obtain rfl := hh hop
      · exact assembleLine_of_encode (.b2u k) ha
      · exact assembleLine_of_encode (.b2s k) ha
    · obtain rfl := hh hop
      exact assembleLine_of_encode (.u2b k) ha
    · obtain rfl := hh hop
      exact assembleLine_of_encode (.s2b k) ha
  · have hh {op : BitVec 4} (hop : opField h = op) : header 0 op = h := hop ▸ header_zero_of_assemble ha
    refine ⟨fun hop => ?_, ?_, ?_, ?_⟩
    · obtain rfl := hh hop
      exact assembleLine_of_encode .zero ha
    · rintro (hop | hop) <;> obtain rfl := hh hop
      · exact assembleLine_of_encode .dexp ha
      · exact assembleLine_of_encode .enc ha
    · rintro (hop | hop | hop) <;> obtain rfl := hh hop
      · exact assembleLine_of_encode .dec ha
      · exact assembleLine_of_encode .neg ha
      · exact assembleLine_of_encode .rcpa ha
    · rintro (hop | hop | hop | hop) <;> obtain rfl := hh hop
      · exact assembleLine_of_encode .add ha
      · exact assembleLine_of_encode .sub ha
      · exact assembleLine_of_encode .mul ha
      · exact assembleLine_of_encode .diva ha

/-! ### Literals (R70) -/

section literals
variable {c : Config}

theorem exists_cfLiteral {s : Bool} {e : Int} {m : Nat} (hmin : c.EMIN ≤ e) (hmax : e ≤ c.EMAX) (hm : m ≤ c.MMAX) :
    ∃ w : BitVec c.W, cfLiteral c s e m = some w ∧ negative w = s ∧ exponent w = e ∧ mantissa w = m :=
  ⟨_, if_pos ⟨hmin, hmax, hm⟩, negative_cfWord .., (exponent_cfWord ..).trans (toInt_ofInt_of_fits ⟨hmin, hmax⟩),
    (mantissa_cfWord ..).trans (toNat_ofNat_of_fits hm)⟩

theorem ten_zpow_quotient (n : Nat) (e : Int) :
    ((n * 10 ^ e.toNat : Nat) : ℚ) / (10 ^ (-e).toNat : Nat) = n * 10 ^ e := by
  obtain ⟨k, rfl | rfl⟩ := e.eq_nat_or_neg <;> simp [div_eq_mul_inv]

theorem roundsTo_decimalValue (f : NF) (s : Bool) (digits : Nat) (scale : Int) :
    RoundsTo f ((if s then -1 else 1) * digits * 10 ^ scale) (decimalValue f s digits scale) := by
  have h := roundsTo_fRound f s (digits * 10 ^ scale.toNat) (den := 10 ^ (-scale).toNat) (by positivity)
  rwa [ten_zpow_quotient, ← mul_assoc] at h

theorem integerOperand_of_bits (env : List (String × Value c)) (x : Scalar) :
    integerOperand env false (.integer x.toNat) = some x ∧ integerOperand env true (.integer x.toInt) = some x := by
  have hx := x.isLt
  have hlo := x.le_toInt
  have hhi := x.toInt_lt
  constructor
  · rw [integerOperand, if_neg Bool.false_ne_true, if_pos ⟨by omega, by omega⟩]
    simp
  · rw [integerOperand, if_pos rfl, if_pos ⟨by omega, by omega⟩, BitVec.ofInt_toInt]

theorem literalsMean : LiteralsMean := by
  intro c env free
  refine ⟨fun n w h => ?_, fun n x h => ?_, fun s e m => exists_cfLiteral, fun w => ?_, fun k v _ => ?_,
    integerOperand_of_bits env, fun s digits scale => ?_, fun s => rfl, ?_, fun b => ?_⟩
  · simp [cfOperand, h]
  · simp [bitsOperand, integerOperand, floatLiteral, namedScalar, h]
  · simp [cfOperand, w.isLt]
  · simp [bitsOperand]
  · exact ⟨_, roundsTo_decimalValue c.nf s digits scale, signOf_fRound .., rfl⟩
  · exact ⟨_, _, fCanonical_madeNaN ⟨c.nf, free⟩, rfl⟩
  · simp [floatLiteral, b.isLt]

end literals

/-- Settles O3: names by their table, lines by the encoding of the header's command, literals each by what it is read as. -/
theorem assembledLineIsItsCommand : Obligations.AssembledLineIsItsCommand := by
  refine ⟨namesAssemble, operandsStandInPortOrder, literalsMean, fun c env free name width operands m hm => ?_⟩
  obtain ⟨h, i, ha, hd, hm⟩ := assembleLine_eq_some_iff.1 hm
  obtain ⟨hh, hports⟩ := ports_of_assembleOperands hm
  rw [hh]
  refine ⟨i, decode_encode i, rfl, fun h' ha' => ?_, hports⟩
  rw [encode_of_assemble ha hd, ← Option.some_inj, ← ha', ha]

end Sys2Proof.Machine
end

section
/-! SUPPORT and PROOFS. The statements of 40_bitcodec.md: the four conversions of bit sequences and their round trips (R80 to R83,
R88 to R90), and the commands that run them (R84 to R87). -/

namespace Sys2Proof.Machine

open Sys2Proof.Safety

/-! ### Sequences and the vectors they are the bits of (R14) -/

/-- Sequences of one length are told apart by their values (R80). -/
theorem eq_of_bitsToUnsigned_eq {q r : BitSeq} (hlen : q.length = r.length) (hval : bitsToUnsigned q = bitsToUnsigned r) :
    q = r := by
  induction q generalizing r with
  | nil => exact (List.length_eq_zero_iff.1 hlen.symm).symm
  | cons b q ih =>
    obtain ⟨b', r, rfl⟩ := List.exists_cons_of_length_eq_add_one hlen.symm
    have htail : q.length = r.length := Nat.succ.inj hlen
    have hq := bitsToUnsigned_lt q
    have hr := bitsToUnsigned_lt r
    rw [htail] at hq
    simp only [bitsToUnsigned, htail] at hval
    -- the leading bit weighs more than all the others together
    have hhead : b = b' := by cases b <;> cases b' <;> simp at hval ⊢ <;> omega
    subst hhead
    rw [ih htail (Nat.add_left_cancel hval)]

theorem toNat_vec (q : BitSeq) : (vec q.length q).toNat = bitsToUnsigned q := Nat.mod_eq_of_lt (bitsToUnsigned_lt q)

/-- `seq(vec(q)) = q` (R14). -/
theorem seqOf_vec (q : BitSeq) : seqOf (vec q.length q) = q :=
  eq_of_bitsToUnsigned_eq (length_seqOf _) (by rw [bitsToUnsigned_seqOf, toNat_vec])

theorem toInt_vec (q : BitSeq) : (vec q.length q).toInt = bitsToSigned q := by rw [← bitsToSigned_seqOf, seqOf_vec]

/-! ### Writing an integer to a sequence (R82, R83) -/

/-- An integer is flagged exactly when it needs more bits (R82). -/
theorem unsignedToBits_snd (v n : Nat) : (unsignedToBits v n).2 = decide (2 ^ n ≤ v) := by
  have hpos : 0 < 2 ^ n := by positivity
  simp only [unsignedToBits, decide_eq_decide]
  omega

/-- The two's-complement form of an integer, bit for bit (R83). -/
theorem signedToBits_fst (v : Int) (n : Nat) : (signedToBits v n).1 = seqOf (BitVec.ofInt n v) := by
  rw [seqOf_eq_lowBits, BitVec.toNat_ofInt]
  rfl

/-- An integer is flagged exactly when it is outside the signed range (R83). -/
theorem signedToBits_snd (v : Int) (n : Nat) :
    (signedToBits v n).2 = decide (v < -2 ^ (n - 1) ∨ 2 ^ (n - 1) - 1 < v) := by
  simp [signedToBits]

theorem unsignedToBits_toNat {n : Nat} (v : BitVec n) : unsignedToBits v.toNat n = (seqOf v, false) := by
  refine Prod.ext (seqOf_eq_lowBits v).symm ?_
  rw [unsignedToBits_snd, decide_eq_false v.isLt.not_ge]

theorem signedToBits_toInt {n : Nat} (v : BitVec n) : signedToBits v.toInt n = (seqOf v, false) := by
  refine Prod.ext ?_ ?_
  · rw [signedToBits_fst, BitVec.ofInt_toInt]
  · have hlo := v.le_toInt
    have hhi := v.toInt_lt
    rw [signedToBits_snd, decide_eq_false (by omega)]

/-! ### Reading an integer back (R88 to R90) -/

theorem bitsToUnsigned_unsignedToBits (v n : Nat) : bitsToUnsigned (unsignedToBits v n).1 = v % 2 ^ n :=
  bitsToUnsigned_lowBits v n

theorem bitsToSigned_signedToBits (v : Int) (n : Nat) : bitsToSigned (signedToBits v n).1 = (BitVec.ofInt n v).toInt := by
  rw [signedToBits_fst, bitsToSigned_seqOf]

/-- The two's-complement form of an integer, read back, is the integer wrapped into the signed range. -/
theorem toInt_ofInt_eq_wrapped (v : Int) {n : Nat} (hn : 0 < n) :
    (BitVec.ofInt n v).toInt = (v + 2 ^ (n - 1)) % 2 ^ n - 2 ^ (n - 1) := by
  have hhalf : (2 : Int) ^ n = 2 * 2 ^ (n - 1) := by rw [← pow_succ', Nat.sub_add_cancel hn]
  have hlo := Int.emod_nonneg (v + 2 ^ (n - 1)) (show (2 : Int) ^ n ≠ 0 by positivity)
  have hhi := Int.emod_lt_of_pos (v + 2 ^ (n - 1)) (show (0 : Int) < 2 ^ n by positivity)
  calc (BitVec.ofInt n v).toInt
      = (BitVec.ofInt n ((v + 2 ^ (n - 1)) % 2 ^ n - 2 ^ (n - 1))).toInt := by
        have hcongr := Int.emod_sub_bmod (y := 2 ^ (n - 1)) (v + 2 ^ (n - 1)) (2 ^ n)
        push_cast at hcongr
        rw [BitVec.toInt_ofInt, BitVec.toInt_ofInt, hcongr, add_sub_cancel_right]
    _ = (v + 2 ^ (n - 1)) % 2 ^ n - 2 ^ (n - 1) := BitVec.toInt_ofInt_eq_self hn (by omega) (by omega)

/-- Settles O29: a sequence is the bits of its vector, whose values are in range; and an integer is written modulo `2 ^ N`. -/
theorem sequenceRoundTrips : Obligations.SequenceRoundTrips := by
  refine ⟨fun q => ?_, fun q _ => ?_, bitsToUnsigned_unsignedToBits, fun v n hn => ?_⟩
  · rw [← toNat_vec, unsignedToBits_toNat, seqOf_vec]
  · rw [← toInt_vec, signedToBits_toInt, seqOf_vec]
  · rw [bitsToSigned_signedToBits, toInt_ofInt_eq_wrapped v (by omega)]

/-! ### The responses of the four commands (R84 to R87) -/

theorem decode_of_opField {h : Header} {op : BitVec 4} {i : Instr} (hop : opField h = op)
    (hi : encode i = header (nField h) op) : decode h = .ok i := by
  rw [← decode_encode i, hi, ← hop, header_fields]

theorem answers_of_response {i : Instr} {s : State} {p : Response s.cfg} (h : response s.cfg i s.command s.draw = p) :
    Answers i s p := by
  rw [Answers, exec_eq_respond, h]
  rfl

theorem legalUnsigned_iff (n : WidthField) : legalUnsigned n = true ↔ 1 ≤ n.toNat ∧ n.toNat ≤ 64 := by
  simp [legalUnsigned]

theorem legalSigned_iff (n : WidthField) : legalSigned n = true ↔ 2 ≤ n.toNat ∧ n.toNat ≤ 64 := by
  simp [legalSigned]

theorem status_decide_oorI (b : Prop) [Decidable b] :
    status false false (decide b) = if b then 0b0100#4 else 0b0000#4 := by
  by_cases hb : b
  · rw [decide_eq_true hb, if_pos hb]
    rfl
  · rw [decide_eq_false hb, if_neg hb]
    rfl

section responses
variable (c : Config) (n : WidthField) (x : Scalar)

theorem b2uResponse_eq : b2uResponse c n x =
    if 1 ≤ n.toNat ∧ n.toNat ≤ 64 then ⟨0, (x.setWidth n.toNat).setWidth 64, 0b0000#4⟩ else ⟨0, 0, 0b1000#4⟩ := by
  simp only [b2uResponse, legalUnsigned_iff, sequenceOperand, bitsToUnsigned_seqOf, BitVec.ofNat_toNat]
  rfl

theorem b2sResponse_eq : b2sResponse c n x =
    if 2 ≤ n.toNat ∧ n.toNat ≤ 64 then ⟨0, (x.setWidth n.toNat).signExtend 64, 0b0000#4⟩ else ⟨0, 0, 0b1000#4⟩ := by
  simp only [b2sResponse, legalSigned_iff, sequenceOperand, bitsToSigned_seqOf]
  rfl

theorem u2bResponse_eq : u2bResponse c n x =
    if 1 ≤ n.toNat ∧ n.toNat ≤ 64 then
      ⟨0, (x.setWidth n.toNat).setWidth 64, if 2 ^ n.toNat ≤ x.toNat then 0b0100#4 else 0b0000#4⟩
    else ⟨0, 0, 0b1000#4⟩ := by
  simp only [u2bResponse, legalUnsigned_iff, unsignedOperand, vec_unsignedToBits, BitVec.ofNat_toNat, unsignedToBits_snd,
    status_decide_oorI]
  rfl

theorem s2bResponse_eq : s2bResponse c n x =
    if 2 ≤ n.toNat ∧ n.toNat ≤ 64 then
      ⟨0, (x.setWidth n.toNat).setWidth 64,
        if x.toInt < -2 ^ (n.toNat - 1) ∨ 2 ^ (n.toNat - 1) - 1 < x.toInt then 0b0100#4 else 0b0000#4⟩
    else ⟨0, 0, 0b1000#4⟩ := by
  simp only [s2bResponse, legalSigned_iff]
  refine if_ctx_congr Iff.rfl (fun hn => ?_) fun _ => rfl
  have hlow : BitVec.ofInt n.toNat x.toInt = x.setWidth n.toNat := BitVec.signExtend_eq_setWidth_of_le x hn.2
  rw [signedOperand, vec_signedToBits, hlow, signedToBits_snd, status_decide_oorI]

end responses

/-- Settles O23, since the value of a vector's bits is the vector's. -/
theorem b2uResult : Obligations.B2uResult :=
  ⟨fun _ hop => decode_of_opField hop rfl, fun n s => answers_of_response (b2uResponse_eq s.cfg n s.portX)⟩

/-- Settles O24, since the signed value of a vector's bits is the vector's. -/
theorem b2sResult : Obligations.B2sResult :=
  ⟨fun _ hop => decode_of_opField hop rfl, fun n s => answers_of_response (b2sResponse_eq s.cfg n s.portX)⟩

/-- Settles O25, since writing `uint(X)` to `N` bits keeps the low ones. -/
theorem u2bResult : Obligations.U2bResult :=
  ⟨fun _ hop => decode_of_opField hop rfl, fun n s => answers_of_response (u2bResponse_eq s.cfg n s.portX)⟩

/-- Settles O26, since writing `sint(X)` to at most 64 bits keeps the low ones. -/
theorem s2bResult : Obligations.S2bResult :=
  ⟨fun _ hop => decode_of_opField hop rfl, fun n s => answers_of_response (s2bResponse_eq s.cfg n s.portX)⟩

/-! ### Round trips of the commands (R88, R89) -/

section scalars
variable {n : Nat} {x : Scalar}

theorem setWidth_low_bits (hn : n ≤ 64) : ((x.setWidth n).setWidth 64).setWidth n = x.setWidth n := by
  rw [BitVec.setWidth_setWidth_of_le _ hn, BitVec.setWidth_eq]

theorem setWidth_low_bits_of_fits (hx : x.toNat < 2 ^ n) : (x.setWidth n).setWidth 64 = x := by
  rw [← BitVec.ofNat_toNat, BitVec.toNat_setWidth, Nat.mod_eq_of_lt hx, BitVec.ofNat_toNat, BitVec.setWidth_eq]

theorem signExtend_low_bits_of_fits (hn : n ≤ 64) (hpos : 0 < n) (hmin : -2 ^ (n - 1) ≤ x.toInt)
    (hmax : x.toInt ≤ 2 ^ (n - 1) - 1) : (x.setWidth n).signExtend 64 = x := by
  have hvalue : (x.signExtend n).toInt = x.toInt := BitVec.toInt_ofInt_eq_self hpos hmin (by omega)
  rw [← BitVec.signExtend_eq_setWidth_of_le x hn, BitVec.signExtend, hvalue, BitVec.ofInt_toInt]

end scalars

/-- Settles O27: a number below `2 ^ N` is its own low `N` bits. -/
theorem unsignedRoundTrip : Obligations.UnsignedRoundTrip := by
  refine ⟨fun v n hv => ?_, fun n s hmin hmax hx => ⟨(s.portX.setWidth n.toNat).setWidth 64, ?_, fun t ht => ?_⟩⟩
  · rw [bitsToUnsigned_unsignedToBits, Nat.mod_eq_of_lt hv]
  · have hwrite := u2bResult.2 n s
    rwa [if_pos ⟨hmin, hmax⟩, if_neg hx.not_ge] at hwrite
  · have hread := b2uResult.2 n t
    rwa [if_pos ⟨hmin, hmax⟩, ht, setWidth_low_bits hmax, setWidth_low_bits_of_fits hx] at hread

/-- Settles O28: a number in the signed range of `N` bits is the sign-extension of its low `N` bits. -/
theorem signedRoundTrip : Obligations.SignedRoundTrip := by
  refine ⟨fun v n hn hlo hhi => ?_, fun n s hmin hmax hlo hhi =>
    ⟨(s.portX.setWidth n.toNat).setWidth 64, ?_, fun t ht => ?_⟩⟩
  · rw [bitsToSigned_signedToBits, BitVec.toInt_ofInt_eq_self (by omega) hlo (by omega)]
  · have hwrite := s2bResult.2 n s
    rwa [if_pos ⟨hmin, hmax⟩, if_neg (by omega)] at hwrite
  · have hread := b2sResult.2 n t
    rwa [if_pos ⟨hmin, hmax⟩, ht, setWidth_low_bits hmax, signExtend_low_bits_of_fits hmax (by omega) hlo hhi] at hread

end Sys2Proof.Machine
end

section
/-! SUPPORT and PROOFS. The statements of 41_decimalscale.md: comparisons, truncation and arithmetic of native floats (R100,
R101), powers of ten (R105, R106), the loops of `DEXPF` (R102 to R104) and DEXP (R110); and from 42_customfloat_codec.md the NaN of
DEC (R125, R126). -/

namespace Sys2Proof.Machine

open Sys2Proof.Safety

/-! ### Comparisons and truncation (R100) -/

theorem scaled_eq_realValue_mul (s : Bool) (m : Nat) {e base : Int} (h : base ≤ e) :
    (scaled s m e base : ℚ) = realValue s m e * 2 ^ (-base) := by
  obtain ⟨k, rfl⟩ := Int.le.dest h
  have hplace : (2 : ℚ) ^ (base + k) * 2 ^ (-base) = 2 ^ k := by
    rw [← zpow_add₀ two_ne_zero, add_neg_cancel_comm, zpow_natCast]
  rw [realValue, mul_assoc, hplace, scaled, add_sub_cancel_left, Int.toNat_natCast]
  cases s <;> simp

theorem fLt_fin_iff (s t : Bool) (m n : Nat) (e g : Int) :
    fLt (.fin s m e) (.fin t n g) = true ↔ realValue s m e < realValue t n g := by
  rw [fLt, decide_eq_true_iff, ← Int.cast_lt (R := ℚ), scaled_eq_realValue_mul s m (min_le_left e g),
    scaled_eq_realValue_mul t n (min_le_right e g), mul_lt_mul_iff_left₀ (by positivity)]

theorem fGe_fin_iff (s t : Bool) (m n : Nat) (e g : Int) :
    fGe (.fin s m e) (.fin t n g) = true ↔ realValue t n g ≤ realValue s m e := by
  rw [← not_lt, ← fLt_fin_iff]
  simp [fGe, fIsNaN]

theorem fLt_eq_false_of_nan {u v : Native} (h : fIsNaN u = true ∨ fIsNaN v = true) : fLt u v = false := by
  cases u <;> cases v <;> simp_all [fLt, fIsNaN]

theorem fGe_eq_false_of_nan {u v : Native} (h : fIsNaN u = true ∨ fIsNaN v = true) : fGe u v = false := by
  rcases h with h | h <;> simp [fGe, h]

/-- The quotient of integers that `F_trunc` takes is the magnitude. -/
theorem fTrunc_fin (s : Bool) (m : Nat) (e : Int) : fTrunc (.fin s m e) = ⌊(m * 2 ^ e : ℚ)⌋₊ := by
  rw [← mul_two_zpow_quotient, Nat.floor_div_eq_div]
  rfl

/-- A finite value that is not negative is its magnitude; with the sign set it is zero. -/
theorem realValue_of_nonneg {s : Bool} {m : Nat} {e : Int} (h : 0 ≤ realValue s m e) : realValue s m e = m * 2 ^ e := by
  rw [← abs_of_nonneg h, abs_realValue]

/-- Settles O31: finite values are compared as integers at a common exponent; the other cases are those of the definition. -/
theorem nativeComparisonIsExact : Obligations.NativeComparisonIsExact := by
  refine ⟨fun s t m n e g => ⟨fLt_fin_iff s t m n e g, fGe_fin_iff s t m n e g, rfl, rfl, rfl, Bool.not_not t, rfl, ?_⟩,
    fun u v h => ⟨fLt_eq_false_of_nan h, fGe_eq_false_of_nan h⟩, fun s m e h => ?_⟩
  · cases s <;> cases t <;> rfl
  · rw [fTrunc_fin, realValue_of_nonneg h, Int.natCast_floor_eq_floor (by positivity)]

/-! ### Rounded arithmetic (R100, R101) -/

section arithmetic
variable (a : Arith) (s t : Bool) (m n : Nat) (e g : Int)

/-- The quotient of integers that `F_mul` rounds. -/
theorem mul_quotient : ((m * n * 2 ^ (e + g).toNat : Nat) : ℚ) / (2 ^ (-(e + g)).toNat : Nat) = m * 2 ^ e * (n * 2 ^ g) := by
  rw [mul_two_zpow_quotient, zpow_add₀ two_ne_zero]
  push_cast
  ring

/-- The quotient of integers that `F_div` rounds. -/
theorem div_quotient :
    ((m * 2 ^ (e - g).toNat : Nat) : ℚ) / (n * 2 ^ (g - e).toNat : Nat) = m * 2 ^ e / (n * 2 ^ g) := by
  rw [← neg_sub e g, Nat.cast_mul n, mul_comm (n : ℚ), ← div_div, mul_two_zpow_quotient, zpow_sub₀ two_ne_zero]
  field_simp

theorem fDiv_fin (hn : n ≠ 0) : fDiv a (.fin s m e) (.fin t n g) =
    fRound a.nf (s ^^ t) (m * 2 ^ (e - g).toNat) (n * 2 ^ (g - e).toNat) := if_neg hn

theorem signFactor_div (s t : Bool) : signFactor s / signFactor t = signFactor s * signFactor t := by
  rw [div_eq_iff (signFactor_ne_zero t), mul_assoc, signFactor_mul_self, mul_one]

theorem roundsTo_fMul : RoundsTo a.nf (realValue s m e * realValue t n g) (fMul a (.fin s m e) (.fin t n g)) := by
  have h := roundsTo_fRound a.nf (s ^^ t) (m * n * 2 ^ (e + g).toNat) (den := 2 ^ (-(e + g)).toNat) (by positivity)
  rwa [mul_quotient, signFactor_xor, mul_mul_mul_comm, ← realValue_eq, ← realValue_eq] at h

theorem roundsTo_fDiv (hn : n ≠ 0) :
    RoundsTo a.nf (realValue s m e / realValue t n g) (fDiv a (.fin s m e) (.fin t n g)) := by
  have h := roundsTo_fRound a.nf (s ^^ t) (m * 2 ^ (e - g).toNat) (den := n * 2 ^ (g - e).toNat)
    (Nat.mul_pos (Nat.pos_of_ne_zero hn) (by positivity))
  rwa [div_quotient, signFactor_xor, ← signFactor_div, div_mul_div_comm, ← realValue_eq, ← realValue_eq,
    ← fDiv_fin a s t m n e g hn] at h

theorem signOf_fDiv (hn : n ≠ 0) : signOf (fDiv a (.fin s m e) (.fin t n g)) = (s ^^ t) := by
  rw [fDiv_fin a s t m n e g hn, signOf_fRound]

theorem roundsTo_fFromUnsigned (f : NF) : RoundsTo f m (fFromUnsigned f m) := by
  simpa [signFactor, fFromUnsigned] using roundsTo_fRound f false m Nat.one_pos

end arithmetic

/-- `F_mul` makes its NaN of every invalid operation and of every NaN operand. -/
theorem fMul_of_invalid (a : Arith) {u v : Native} (h : mulValid u v = false) : fMul a u v = madeNaN a := by
  rcases u with _ | _ | ⟨_, m, _⟩ <;> rcases v with _ | _ | ⟨_, n, _⟩ <;>
    simp_all [mulValid, fMul, fIsNaN, fIsInf, fIsZero]

/-- `F_div` makes its NaN of every invalid operation and of every NaN operand. -/
theorem fDiv_of_invalid (a : Arith) {u v : Native} (h : divValid u v = false) : fDiv a u v = madeNaN a := by
  rcases u with _ | _ | ⟨_, m, _⟩ <;> rcases v with _ | _ | ⟨_, n, _⟩ <;>
    simp_all [divValid, fDiv, fIsNaN, fIsInf, fIsZero]

/-- Free bits with a NaN's sign on top and its fraction below make that NaN (R126). -/
theorem madeNaN_of_fields {f : NF} {s : Bool} {frac : Nat} (h : fCanonical f (.nan s frac)) :
    madeNaN ⟨f, BitVec.ofNat 64 (s.toNat * 2 ^ 63 + frac)⟩ = .nan s frac := by
  obtain ⟨hpos, hfits⟩ := h
  have hfrac : (s.toNat * 2 ^ 63 + frac) % 2 ^ 64 % 2 ^ (precision f - 1) = frac := by
    cases f <;> simp only [precision] at hfits ⊢ <;> cases s <;> simp only [Bool.toNat_true, Bool.toNat_false] <;> omega
  have hsign : (BitVec.ofNat 64 (s.toNat * 2 ^ 63 + frac)).msb = s := by
    have hlt : frac < 2 ^ 63 := hfits.trans_le (by cases f <;> norm_num [precision])
    rw [BitVec.msb_eq_decide, BitVec.toNat_ofNat]
    cases s <;> simp only [Bool.toNat_true, Bool.toNat_false, decide_eq_true_eq, decide_eq_false_iff_not] <;> omega
  simp only [madeNaN, BitVec.toNat_ofNat, hfrac, hsign, if_neg hpos.ne']

/-- Settles O32: finite operands by rounding the exact quotient, the others by the cases of the definitions. -/
theorem nativeArithmeticRoundsToNearestEven : Obligations.NativeArithmeticRoundsToNearestEven := by
  refine ⟨fun a s t m n e g => ⟨⟨roundsTo_fMul a s t m n e g, signOf_fRound ..⟩,
      fun hn => ⟨roundsTo_fDiv a s t m n e g hn, signOf_fDiv a s t m n e g hn⟩,
      roundsTo_fFromUnsigned m a.nf, signOf_fRound ..⟩,
    fun a s t n g => ⟨rfl, rfl, rfl, rfl, fun hn => ⟨if_neg hn, if_neg hn, fun h => ?_⟩⟩,
    fun a u v h => fMul_of_invalid a ?_, fun a u v h => fDiv_of_invalid a ?_, fun f s frac h => ⟨_, madeNaN_of_fields h⟩⟩
  · simp [fDiv, hn]
  · rcases h with h | h | ⟨h, h'⟩ | ⟨h, h'⟩ <;> simp [mulValid, *]
  · rcases h with h | h | ⟨h, h'⟩ | ⟨h, h'⟩ <;> simp [divValid, *]

/-! ### Magnitudes and their rounding (R101) -/

/-- The rational value of a finite native value without its sign. -/
def magnitude : Native → ℚ
  | .nan _ _ => 0
  | .inf _ => 0
  | .fin _ m e => m * 2 ^ e

/-- A finite value of the format with the sign `+`. -/
def IsMagnitude (f : NF) (v : Native) : Prop := ∃ m e, v = .fin false m e ∧ fCanonical f v

/-- `v` is what the format rounds `q` to, as its primitives do it: `q` is the quotient of integers that is rounded. -/
def IsRounding (f : NF) (q : ℚ) (v : Native) : Prop :=
  ∃ num den : Nat, 0 < den ∧ (num : ℚ) / den = q ∧ v = fRound f false num den

/-- Half a last place of `1`: the greatest relative error of rounding to a normal value. -/
def roundoff (f : NF) : ℚ := 1 / 2 ^ precision f

theorem roundoff_pos (f : NF) : 0 < roundoff f := by unfold roundoff; positivity

theorem roundoff_lt_one (f : NF) : roundoff f < 1 := by cases f <;> norm_num [roundoff, precision]

theorem one_sub_roundoff_pos (f : NF) : 0 < 1 - roundoff f := sub_pos.2 (roundoff_lt_one f)

theorem roundoff_eq_zpow (f : NF) : roundoff f = 2 ^ (-(precision f : Int)) := by
  rw [roundoff, zpow_neg, zpow_natCast, one_div]

/-- Further roundings only lower the factor that bounds their errors. -/
theorem one_sub_roundoff_pow_le (f : NF) {k n : Nat} (h : k ≤ n) : (1 - roundoff f) ^ n ≤ (1 - roundoff f) ^ k :=
  pow_le_pow_of_le_one (one_sub_roundoff_pos f).le (sub_le_self 1 (roundoff_pos f).le) h

section magnitude
variable {f : NF} {u v w : Native}

theorem realValue_false (m : Nat) (e : Int) : realValue false m e = m * 2 ^ e := by simp [realValue]

theorem magnitude_fOne (f : NF) : magnitude (fOne f) = 1 := by cases f <;> norm_num [magnitude, fOne, precision]

theorem magnitude_fTen (f : NF) : magnitude (fTen f) = 10 := fTen_value f

theorem isMagnitude_fOne (f : NF) : IsMagnitude f (fOne f) := ⟨_, _, rfl, fCanonical_fOne f⟩

theorem isMagnitude_fTen (f : NF) : IsMagnitude f (fTen f) := ⟨_, _, rfl, fCanonical_fTen f⟩

theorem isMagnitude_fAbs (hcanon : fCanonical f v) (hfinite : fIsFinite v = true) : IsMagnitude f (fAbs v) := by
  cases v with
  | nan => cases hfinite
  | inf => cases hfinite
  | fin s m e => exact ⟨m, e, rfl, hcanon⟩

theorem IsMagnitude.not_nan (h : IsMagnitude f v) : fIsNaN v = false := by
  obtain ⟨m, e, rfl, _⟩ := h
  rfl

theorem IsMagnitude.not_inf (h : IsMagnitude f v) : fIsInf v = false := by
  obtain ⟨m, e, rfl, _⟩ := h
  rfl

theorem IsMagnitude.isFinite (h : IsMagnitude f v) : fIsFinite v = true := by simp [fIsFinite, h.not_nan, h.not_inf]

theorem IsMagnitude.nonneg (h : IsMagnitude f v) : 0 ≤ magnitude v := by
  obtain ⟨m, e, rfl, _⟩ := h
  unfold magnitude
  positivity

theorem IsMagnitude.fLt_iff (hu : IsMagnitude f u) (hv : IsMagnitude f v) :
    fLt u v = true ↔ magnitude u < magnitude v := by
  obtain ⟨m, e, rfl, _⟩ := hu
  obtain ⟨n, g, rfl, _⟩ := hv
  rw [fLt_fin_iff, realValue_false, realValue_false]
  rfl

theorem IsMagnitude.fGe_iff (hu : IsMagnitude f u) (hv : IsMagnitude f v) :
    fGe u v = true ↔ magnitude v ≤ magnitude u := by
  obtain ⟨m, e, rfl, _⟩ := hu
  obtain ⟨n, g, rfl, _⟩ := hv
  rw [fGe_fin_iff, realValue_false, realValue_false]
  rfl

theorem IsMagnitude.fLt_fOne_iff (hv : IsMagnitude f v) : fLt v (fOne f) = true ↔ magnitude v < 1 := by
  rw [hv.fLt_iff (isMagnitude_fOne f), magnitude_fOne]

theorem IsMagnitude.fGe_fTen_iff (hv : IsMagnitude f v) : fGe v (fTen f) = true ↔ 10 ≤ magnitude v := by
  rw [hv.fGe_iff (isMagnitude_fTen f), magnitude_fTen]

theorem fIsZero_eq_false_of_magnitude_pos (h : 0 < magnitude v) : fIsZero v = false := by
  cases v with
  | nan => rfl
  | inf => rfl
  | fin s m e =>
    rw [fIsZero, beq_eq_false_iff_ne]
    rintro rfl
    simp [magnitude] at h

/-- A value below one is at most the last one before it: a whole number of the last places just below one. -/
theorem IsMagnitude.le_one_sub_roundoff (hv : IsMagnitude f v) (h : magnitude v < 1) : magnitude v ≤ 1 - roundoff f := by
  obtain ⟨m, e, rfl, hcanon⟩ := hv
  have hplaces := exists_lastPlaces_of_fCanonical hcanon (-(precision f : Int))
  rw [realValue_false, ← roundoff_eq_zpow] at hplaces
  have hone : 2 ^ precision f * roundoff f = 1 := by rw [roundoff]; field_simp
  rcases hplaces with ⟨z, hz⟩ | ⟨_, hhalf⟩
  · rw [magnitude, hz] at h ⊢
    have hlt : (z : ℚ) < 2 ^ precision f := lt_of_mul_lt_mul_right (h.trans_eq hone.symm) (roundoff_pos f).le
    have hle : (z : ℚ) + 1 ≤ 2 ^ precision f := by exact_mod_cast Int.add_one_le_of_lt (by exact_mod_cast hlt)
    have hprod := mul_le_mul_of_nonneg_right hle (roundoff_pos f).le
    linarith
  · rw [magnitude]
    have hbelow := (le_abs_self _).trans_lt hhalf
    refine hbelow.le.trans ?_
    cases f <;> norm_num [roundoff, precision]

theorem IsMagnitude.lt_overflowThreshold (hv : IsMagnitude f v) : magnitude v < overflowThreshold f := by
  obtain ⟨m, e, rfl, hm, _, hmax, _⟩ := hv
  have hle : (m : ℚ) + 1 ≤ 2 ^ precision f := by exact_mod_cast hm
  rw [magnitude, overflowThreshold]
  calc (m : ℚ) * 2 ^ e ≤ m * 2 ^ maxExp f := by gcongr; norm_num
    _ < (2 ^ precision f - 1 / 2) * 2 ^ maxExp f := by gcongr; linarith

theorem overflowThreshold_pos (f : NF) : 0 < overflowThreshold f :=
  (isMagnitude_fOne f).nonneg.trans_lt (isMagnitude_fOne f).lt_overflowThreshold

theorem ten_lt_overflowThreshold (f : NF) : 10 < overflowThreshold f :=
  magnitude_fTen f ▸ (isMagnitude_fTen f).lt_overflowThreshold

/-- The reciprocal of a finite value does not underflow. -/
theorem overflowThreshold_le_two_zpow (f : NF) : overflowThreshold f ≤ 2 ^ (-minExp f) := by
  calc overflowThreshold f ≤ 2 ^ (precision f : Int) * 2 ^ maxExp f := by
        rw [overflowThreshold, zpow_natCast]
        gcongr
        norm_num
    _ = 2 ^ (precision f + maxExp f) := (zpow_add₀ two_ne_zero ..).symm
    _ ≤ 2 ^ (-minExp f) := zpow_le_zpow_right₀ (by norm_num) (by cases f <;> decide)

/-- A value that is not zero is at least the least one above it. -/
theorem IsMagnitude.two_zpow_minExp_le (hv : IsMagnitude f v) (hzero : fIsZero v = false) :
    (2 : ℚ) ^ minExp f ≤ magnitude v := by
  obtain ⟨m, e, rfl, _, hmin, _⟩ := hv
  have hm : (1 : ℚ) ≤ m := by exact_mod_cast Nat.one_le_iff_ne_zero.2 (by simpa [fIsZero] using hzero)
  calc (2 : ℚ) ^ minExp f ≤ 2 ^ e := zpow_le_zpow_right₀ (by norm_num) hmin
    _ ≤ m * 2 ^ e := le_mul_of_one_le_left (by positivity) hm

/-- Every number of at most `p` bits at an exponent within the format's is a value of the format: shift it until its leading one
is in place or the exponent is the least. -/
theorem exists_isMagnitude {n : Nat} {e : Int} (hn : n < 2 ^ precision f) (hmin : minExp f ≤ e) (hmax : e ≤ maxExp f) :
    ∃ w, IsMagnitude f w ∧ magnitude w = n * 2 ^ e := by
  rcases Nat.eq_zero_or_pos n with rfl | hpos
  · exact ⟨fZero f false, ⟨_, _, rfl, fCanonical_fZero f false⟩, by simp [fZero, magnitude]⟩
  obtain ⟨k, hk⟩ : ∃ k : Nat, k = min (precision f - 1 - n.log2) (e - minExp f).toNat := ⟨_, rfl⟩
  have hlog : n.log2 < precision f := (Nat.log2_lt hpos.ne').2 hn
  have hfits : n * 2 ^ k < 2 ^ precision f := by
    calc n * 2 ^ k < 2 ^ (n.log2 + 1) * 2 ^ k := Nat.mul_lt_mul_of_pos_right Nat.lt_log2_self (by positivity)
      _ = 2 ^ (n.log2 + 1 + k) := (pow_add ..).symm
      _ ≤ 2 ^ precision f := Nat.pow_le_pow_right (by norm_num) (by omega)
  have hlead : 2 ^ (precision f - 1) ≤ n * 2 ^ k ∨ e - k = minExp f := by
    rcases le_total (e - minExp f).toNat (precision f - 1 - n.log2) with hshift | hshift
    · exact .inr (by omega)
    · refine .inl ?_
      calc 2 ^ (precision f - 1) = 2 ^ n.log2 * 2 ^ k := by rw [← pow_add]; congr 1; omega
        _ ≤ n * 2 ^ k := Nat.mul_le_mul_right _ (Nat.log2_self_le hpos.ne')
  refine ⟨.fin false (n * 2 ^ k) (e - k), ⟨_, _, rfl, hfits, by omega, by omega, hlead⟩, ?_⟩
  rw [magnitude, zpow_sub₀ two_ne_zero, zpow_natCast]
  push_cast
  field_simp

end magnitude

section rounding
variable {f : NF} {q : ℚ} {u v w : Native}

theorem isRounding_fMul (a : Arith) (hu : IsMagnitude a.nf u) (hv : IsMagnitude a.nf v) :
    IsRounding a.nf (magnitude u * magnitude v) (fMul a u v) := by
  obtain ⟨m, e, rfl, _⟩ := hu
  obtain ⟨n, g, rfl, _⟩ := hv
  exact ⟨_, _, by positivity, mul_quotient m n e g, rfl⟩

theorem isRounding_fDiv (a : Arith) (hu : IsMagnitude a.nf u) (hv : IsMagnitude a.nf v) (hzero : fIsZero v = false) :
    IsRounding a.nf (magnitude u / magnitude v) (fDiv a u v) := by
  obtain ⟨m, e, rfl, _⟩ := hu
  obtain ⟨n, g, rfl, _⟩ := hv
  have hn : n ≠ 0 := by simpa [fIsZero] using hzero
  exact ⟨_, _, Nat.mul_pos (Nat.pos_of_ne_zero hn) (by positivity), div_quotient m n e g, fDiv_fin a false false m n e g hn⟩

theorem isRounding_fMul_fTen (a : Arith) (hv : IsMagnitude a.nf v) :
    IsRounding a.nf (magnitude v * 10) (fMul a v (fTen a.nf)) := by
  rw [← magnitude_fTen a.nf]
  exact isRounding_fMul a hv (isMagnitude_fTen a.nf)

theorem isRounding_fDiv_fTen (a : Arith) (hv : IsMagnitude a.nf v) :
    IsRounding a.nf (magnitude v / 10) (fDiv a v (fTen a.nf)) := by
  rw [← magnitude_fTen a.nf]
  exact isRounding_fDiv a hv (isMagnitude_fTen a.nf) (by simp [fTen, fIsZero])

theorem isRounding_fFromUnsigned (f : NF) (i : Nat) : IsRounding f i (fFromUnsigned f i) := ⟨i, 1, Nat.one_pos, by simp, rfl⟩

theorem IsRounding.roundsTo (h : IsRounding f q v) : RoundsTo f q v := by
  obtain ⟨num, den, hd, rfl, rfl⟩ := h
  simpa [signFactor] using roundsTo_fRound f false num hd

theorem IsRounding.nonneg (h : IsRounding f q v) : 0 ≤ q := by
  obtain ⟨num, den, _, rfl, _⟩ := h
  positivity

/-- Rounding a magnitude gives `+infinity`, from the threshold on, or a finite magnitude. -/
theorem IsRounding.cases (h : IsRounding f q v) : (v = .inf false ∧ overflowThreshold f ≤ q) ∨ IsMagnitude f v := by
  have hnear := h.roundsTo
  have hq := abs_of_nonneg h.nonneg
  obtain ⟨num, den, hd, _, hv⟩ := h
  have hsign : signOf v = false := by rw [hv, signOf_fRound]
  have hcanon : fCanonical f v := by rw [hv]; exact fCanonical_fRound f false num hd
  cases v with
  | nan => exact hnear.elim
  | inf s =>
    obtain rfl : s = false := hsign
    exact .inl ⟨rfl, by rwa [RoundsTo, hq] at hnear⟩
  | fin s m e =>
    obtain rfl : s = false := hsign
    exact .inr ⟨m, e, rfl, hcanon⟩

theorem IsRounding.isMagnitude_of_lt (h : IsRounding f q v) (hq : q < overflowThreshold f) : IsMagnitude f v :=
  h.cases.resolve_left fun hover => absurd hq (not_lt.2 hover.2)

/-- No magnitude of the format is nearer than the one rounded to. -/
theorem IsRounding.nearest (h : IsRounding f q v) (hv : IsMagnitude f v) (hw : IsMagnitude f w) :
    |magnitude v - q| ≤ |magnitude w - q| := by
  have hround := h.roundsTo
  obtain ⟨m, e, rfl, _⟩ := hv
  obtain ⟨n, g, rfl, hcanon⟩ := hw
  obtain ⟨_, _, hnearest⟩ := hround
  obtain ⟨hle, _⟩ := hnearest false n g hcanon
  rwa [realValue_false, realValue_false] at hle

/-- Rounding does not pass a value of the format from above. -/
theorem IsRounding.le_magnitude (h : IsRounding f q v) (hv : IsMagnitude f v) (hw : IsMagnitude f w)
    (hle : magnitude w ≤ q) : magnitude w ≤ magnitude v := by
  by_contra hlt
  have hnear := h.nearest hv hw
  rw [abs_of_nonpos (by linarith), abs_of_nonpos (by linarith)] at hnear
  linarith

/-- A value of the format is rounded to itself. -/
theorem IsRounding.exact (h : IsRounding f q v) (hw : IsMagnitude f w) (hq : magnitude w = q) :
    IsMagnitude f v ∧ magnitude v = q := by
  have hv := h.isMagnitude_of_lt (hq ▸ hw.lt_overflowThreshold)
  have hnear := h.nearest hv hw
  rw [hq, sub_self, abs_zero, abs_nonpos_iff, sub_eq_zero] at hnear
  exact ⟨hv, hnear⟩

theorem IsRounding.not_isZero (h : IsRounding f q v) (hq : (2 : ℚ) ^ minExp f ≤ q) : fIsZero v = false := by
  obtain ⟨num, den, hd, rfl, rfl⟩ := h
  exact fIsZero_fRound false hd hq

theorem magnitude_fRound {s : Bool} {num den : Nat} (hfinite : fIsFinite (fRound f s num den) = true) :
    magnitude (fRound f s num den) = roundedMagnitude f num den := by
  rcases fRound_cases f s num den with ⟨hn, h⟩ | ⟨_, _, _, h⟩ | ⟨_, hk, _, h⟩ | ⟨_, h, _⟩
  · rw [h, hn]
    simp [fZero, magnitude, roundedMagnitude, roundingInt, nearestEven]
  · rw [h]
    rfl
  · rw [h, magnitude, roundedMagnitude, hk]
    push_cast
    exact (two_pow_precision_mul f _).symm
  · rw [h] at hfinite
    cases hfinite

/-- Rounding to a finite value in the normal range is off by at most the roundoff. -/
theorem IsRounding.close (h : IsRounding f q v) (hv : IsMagnitude f v) (hq : (2 : ℚ) ^ (minExp f + precision f) ≤ q) :
    |magnitude v - q| ≤ q * roundoff f := by
  obtain ⟨num, den, hd, rfl, rfl⟩ := h
  have hn : 0 < num := by
    have hpos : (0 : ℚ) < num / den := lt_of_lt_of_le (by positivity) hq
    exact_mod_cast (div_pos_iff_of_pos_right (by exact_mod_cast hd)).1 hpos
  have hexp : roundingExp f num den ≠ minExp f := by
    intro hmin
    have hp : 1 ≤ precision f := by cases f <;> decide
    have hlog : floorLog2 num den + 1 ≤ minExp f + precision f := by
      rw [roundingExp] at hmin
      omega
    exact absurd (hq.trans_lt (floorLog2_spec hn hd).2) (not_lt.2 (zpow_le_zpow_right₀ (by norm_num) hlog))
  have hunit : (1 : ℚ) / 2 = 2 ^ (precision f - 1) * roundoff f := by cases f <;> norm_num [roundoff, precision]
  rw [magnitude_fRound hv.isFinite, roundedMagnitude, ← lastPlaces_mul f num den, ← sub_mul, abs_mul,
    abs_of_pos (by positivity : (0 : ℚ) < 2 ^ roundingExp f num den), mul_right_comm]
  refine mul_le_mul_of_nonneg_right ?_ (by positivity)
  calc |(roundingInt f num den : ℚ) - lastPlaces f num den|
      ≤ 2 ^ (precision f - 1) * roundoff f := (roundingInt_close f hd).trans_eq hunit
    _ ≤ lastPlaces f num den * roundoff f :=
      mul_le_mul_of_nonneg_right (le_lastPlaces f hn hd hexp) (roundoff_pos f).le

end rounding

/-! ### The bounds of the loops (R104, R106) -/

/-- The most divisions that the first loop of `DEXPF` makes (R104). -/
def divisionBound : NF → Nat
  | .binary32 => 38
  | .binary64 => 308

/-- The most multiplications that the second loop of `DEXPF` makes (R104). -/
def multiplicationBound : NF → Nat
  | .binary32 => 45
  | .binary64 => 324

section bounds
variable (f : NF)

theorem tenCap_eq : tenCap f = divisionBound f + 1 := by cases f <;> rfl

/-- Powers of one less the roundoff, by Bernoulli's inequality: the relative errors of `k` roundings at most add up. -/
theorem one_sub_mul_roundoff_le (k : Nat) : 1 - k * roundoff f ≤ (1 - roundoff f) ^ k := by
  have h := one_add_mul_le_pow (a := -roundoff f) (by linarith [roundoff_lt_one f]) k
  rwa [mul_neg, ← sub_eq_add_neg, ← sub_eq_add_neg] at h

theorem two_zpow_maxExp : (2 : ℚ) ^ maxExp f = 2 ^ (maxExp f).toNat := by cases f <;> rfl

theorem two_zpow_minExp : (2 : ℚ) ^ minExp f = (2 ^ (-minExp f).toNat)⁻¹ := by cases f <;> rfl

/-- `10 ^ 309` (`10 ^ 39`) is beyond the format's range, even if it is computed with an error in every multiplication. -/
theorem overflowThreshold_le_ten_pow : overflowThreshold f ≤ 10 ^ tenCap f * (1 - roundoff f) ^ tenCap f := by
  have hint : ((2 ^ (precision f + 1) - 1) * 2 ^ (maxExp f).toNat * 2 ^ precision f : Int) ≤
      10 ^ tenCap f * 2 * (2 ^ precision f - tenCap f) := by cases f <;> decide +kernel
  have hrat : ((2 ^ (precision f + 1) - 1) * 2 ^ (maxExp f).toNat * 2 ^ precision f : ℚ) ≤
      10 ^ tenCap f * 2 * (2 ^ precision f - tenCap f) := by exact_mod_cast hint
  calc overflowThreshold f
      = (2 ^ (precision f + 1) - 1) * 2 ^ (maxExp f).toNat * 2 ^ precision f / (2 * 2 ^ precision f) := by
        rw [overflowThreshold, two_zpow_maxExp, pow_succ]
        field_simp
    _ ≤ 10 ^ tenCap f * 2 * (2 ^ precision f - tenCap f) / (2 * 2 ^ precision f) := by gcongr
    _ = 10 ^ tenCap f * (1 - tenCap f * roundoff f) := by
        rw [roundoff]
        field_simp
    _ ≤ 10 ^ tenCap f * (1 - roundoff f) ^ tenCap f := by gcongr; exact one_sub_mul_roundoff_le f _

/-- `10 ^ 308` (`10 ^ 38`) is within the format's range, even if it is computed with an error in every multiplication. -/
theorem ten_pow_lt_overflowThreshold :
    10 ^ divisionBound f < overflowThreshold f * (1 - roundoff f) ^ divisionBound f := by
  have hint : (10 ^ divisionBound f * 2 * 2 ^ precision f : Int) <
      (2 ^ (precision f + 1) - 1) * 2 ^ (maxExp f).toNat * (2 ^ precision f - divisionBound f) := by
    cases f <;> decide +kernel
  have hrat : (10 ^ divisionBound f * 2 * 2 ^ precision f : ℚ) <
      (2 ^ (precision f + 1) - 1) * 2 ^ (maxExp f).toNat * (2 ^ precision f - divisionBound f) := by exact_mod_cast hint
  have hthr := overflowThreshold_pos f
  calc (10 : ℚ) ^ divisionBound f
      = 10 ^ divisionBound f * 2 * 2 ^ precision f / (2 * 2 ^ precision f) := by field_simp
    _ < (2 ^ (precision f + 1) - 1) * 2 ^ (maxExp f).toNat * (2 ^ precision f - divisionBound f) / (2 * 2 ^ precision f) := by
        gcongr
    _ = overflowThreshold f * (1 - divisionBound f * roundoff f) := by
        rw [overflowThreshold, two_zpow_maxExp, pow_succ, roundoff]
        field_simp
    _ ≤ overflowThreshold f * (1 - roundoff f) ^ divisionBound f := by gcongr; exact one_sub_mul_roundoff_le f _

/-- The least positive value times `10 ^ 324` (`10 ^ 45`) is at least one, even with an error in every multiplication. -/
theorem one_le_minExp_mul_ten_pow :
    1 ≤ 2 ^ minExp f * 10 ^ multiplicationBound f * (1 - roundoff f) ^ multiplicationBound f := by
  have hint : (2 ^ (-minExp f).toNat * 2 ^ precision f : Int) ≤
      10 ^ multiplicationBound f * (2 ^ precision f - multiplicationBound f) := by cases f <;> decide +kernel
  have hrat : (2 ^ (-minExp f).toNat * 2 ^ precision f : ℚ) ≤
      10 ^ multiplicationBound f * (2 ^ precision f - multiplicationBound f) := by exact_mod_cast hint
  calc (1 : ℚ)
      = 2 ^ (-minExp f).toNat * 2 ^ precision f / (2 ^ (-minExp f).toNat * 2 ^ precision f) := (div_self (by positivity)).symm
    _ ≤ 10 ^ multiplicationBound f * (2 ^ precision f - multiplicationBound f) /
          (2 ^ (-minExp f).toNat * 2 ^ precision f) := by gcongr
    _ = 2 ^ minExp f * 10 ^ multiplicationBound f * (1 - multiplicationBound f * roundoff f) := by
        rw [two_zpow_minExp, roundoff]
        field_simp
    _ ≤ 2 ^ minExp f * 10 ^ multiplicationBound f * (1 - roundoff f) ^ multiplicationBound f := by
        gcongr
        exact one_sub_mul_roundoff_le f _

end bounds

/-! ### Multiplications and divisions by ten -/

section tens
variable (a : Arith) {v : Native}

/-- Ten times a finite magnitude is rounded with a relative error of at most the roundoff: below the normal range it is exact. -/
theorem fMul_fTen_close (hv : IsMagnitude a.nf v) (hfinite : IsMagnitude a.nf (fMul a v (fTen a.nf))) :
    |magnitude (fMul a v (fTen a.nf)) - magnitude v * 10| ≤ magnitude v * 10 * roundoff a.nf := by
  have hround := isRounding_fMul_fTen a hv
  rcases le_or_gt ((2 : ℚ) ^ (minExp a.nf + precision a.nf)) (magnitude v * 10) with hnormal | hsmall
  · exact hround.close hfinite hnormal
  · have hnonneg := mul_nonneg hround.nonneg (roundoff_pos a.nf).le
    obtain ⟨m, e, rfl, _, hmin, _⟩ := hv
    obtain ⟨k, rfl⟩ := Int.le.dest hmin
    have hvalue : magnitude (.fin false m (minExp a.nf + k)) * 10 = (m * 10 * 2 ^ k : Nat) * 2 ^ minExp a.nf := by
      rw [magnitude, zpow_add₀ two_ne_zero, zpow_natCast]
      push_cast
      ring
    have hfits : m * 10 * 2 ^ k < 2 ^ precision a.nf := by
      rw [hvalue, zpow_add₀ two_ne_zero, mul_comm] at hsmall
      exact_mod_cast lt_of_mul_lt_mul_left hsmall (by positivity)
    obtain ⟨w, hw, hwvalue⟩ := exists_isMagnitude hfits le_rfl (by cases a.nf <;> decide : minExp a.nf ≤ maxExp a.nf)
    rw [(hround.exact hw (hwvalue.trans hvalue.symm)).2, sub_self, abs_zero]
    exact hnonneg

/-- Ten times a finite magnitude is `+infinity`, from the threshold on, or within the roundoff. -/
theorem fMul_fTen_cases (hv : IsMagnitude a.nf v) :
    (fMul a v (fTen a.nf) = .inf false ∧ overflowThreshold a.nf ≤ magnitude v * 10) ∨
    (IsMagnitude a.nf (fMul a v (fTen a.nf)) ∧
      magnitude v * 10 * (1 - roundoff a.nf) ≤ magnitude (fMul a v (fTen a.nf)) ∧
      magnitude (fMul a v (fTen a.nf)) * (1 - roundoff a.nf) ≤ magnitude v * 10) := by
  have hround := isRounding_fMul_fTen a hv
  refine hround.cases.imp_right fun hfinite => ?_
  obtain ⟨hlow, hhigh⟩ := abs_le.1 (fMul_fTen_close a hv hfinite)
  have hsquare := mul_nonneg hround.nonneg (sq_nonneg (roundoff a.nf))
  have hpos := one_sub_roundoff_pos a.nf
  refine ⟨hfinite, by linarith, ?_⟩
  calc magnitude (fMul a v (fTen a.nf)) * (1 - roundoff a.nf)
      ≤ (magnitude v * 10 * (1 + roundoff a.nf)) * (1 - roundoff a.nf) := by gcongr; linarith
    _ ≤ magnitude v * 10 := by linarith

theorem multiplied_succ (k : Nat) (v : Native) : multiplied a (k + 1) v = fMul a (multiplied a k v) (fTen a.nf) :=
  Function.iterate_succ_apply' ..

theorem divided_succ (k : Nat) (v : Native) : divided a (k + 1) v = fDiv a (divided a k v) (fTen a.nf) :=
  Function.iterate_succ_apply' ..

theorem timesTen_eq_multiplied (k : Nat) (v : Native) : timesTen a k v = multiplied a k v := by
  induction k generalizing v with
  | zero => rfl
  | succ k ih => exact ih _

theorem fMul_inf_fTen : fMul a (.inf false) (fTen a.nf) = .inf false := by simp [fMul, fTen]

/-- `k` multiplications of a finite magnitude by ten give `+infinity`, from the threshold on, or a value within `k` roundoffs. -/
theorem multiplied_cases (k : Nat) (hv : IsMagnitude a.nf v) :
    (multiplied a k v = .inf false ∧ overflowThreshold a.nf * (1 - roundoff a.nf) ^ k ≤ magnitude v * 10 ^ k) ∨
    (IsMagnitude a.nf (multiplied a k v) ∧
      magnitude v * 10 ^ k * (1 - roundoff a.nf) ^ k ≤ magnitude (multiplied a k v) ∧
      magnitude (multiplied a k v) * (1 - roundoff a.nf) ^ k ≤ magnitude v * 10 ^ k) := by
  have hpos := one_sub_roundoff_pos a.nf
  have hthr := overflowThreshold_pos a.nf
  have hv0 := hv.nonneg
  induction k with
  | zero => exact .inr ⟨hv, by simp [multiplied], by simp [multiplied]⟩
  | succ k ih =>
    have hstep := mul_le_mul_of_nonneg_left (one_sub_roundoff_pow_le a.nf k.le_succ) hthr.le
    rw [multiplied_succ]
    rcases ih with ⟨hinf, hover⟩ | ⟨hfinite, hlow, hhigh⟩
    · refine .inl ⟨by rw [hinf, fMul_inf_fTen], hstep.trans (hover.trans ?_)⟩
      gcongr
      · norm_num
      · exact k.le_succ
    · rcases fMul_fTen_cases a hfinite with ⟨hinf, hover⟩ | ⟨hfinite', hlow', hhigh'⟩
      · refine .inl ⟨hinf, hstep.trans ?_⟩
        calc overflowThreshold a.nf * (1 - roundoff a.nf) ^ k
            ≤ magnitude (multiplied a k v) * 10 * (1 - roundoff a.nf) ^ k := by gcongr
          _ = magnitude (multiplied a k v) * (1 - roundoff a.nf) ^ k * 10 := by ring
          _ ≤ magnitude v * 10 ^ k * 10 := by gcongr
          _ = magnitude v * 10 ^ (k + 1) := by ring
      · refine .inr ⟨hfinite', ?_, ?_⟩
        · calc magnitude v * 10 ^ (k + 1) * (1 - roundoff a.nf) ^ (k + 1)
              = magnitude v * 10 ^ k * (1 - roundoff a.nf) ^ k * 10 * (1 - roundoff a.nf) := by ring
            _ ≤ magnitude (multiplied a k v) * 10 * (1 - roundoff a.nf) := by gcongr
            _ ≤ _ := hlow'
        · calc magnitude (fMul a (multiplied a k v) (fTen a.nf)) * (1 - roundoff a.nf) ^ (k + 1)
              = magnitude (fMul a (multiplied a k v) (fTen a.nf)) * (1 - roundoff a.nf) * (1 - roundoff a.nf) ^ k := by ring
            _ ≤ magnitude (multiplied a k v) * 10 * (1 - roundoff a.nf) ^ k := by gcongr
            _ = magnitude (multiplied a k v) * (1 - roundoff a.nf) ^ k * 10 := by ring
            _ ≤ magnitude v * 10 ^ k * 10 := by gcongr
            _ = magnitude v * 10 ^ (k + 1) := by ring

/-- A finite magnitude below one, times ten, stays below ten: the last value below ten is nearer than ten. -/
theorem fMul_fTen_lt_ten (hv : IsMagnitude a.nf v) (h : magnitude v < 1) :
    IsMagnitude a.nf (fMul a v (fTen a.nf)) ∧ magnitude (fMul a v (fTen a.nf)) < 10 := by
  have hround := isRounding_fMul_fTen a hv
  have hfinite := hround.isMagnitude_of_lt (lt_trans (by linarith) (ten_lt_overflowThreshold a.nf))
  refine ⟨hfinite, ?_⟩
  obtain ⟨w, hw, hwvalue⟩ : ∃ w, IsMagnitude a.nf w ∧ magnitude w = 10 - 16 * roundoff a.nf := by
    obtain ⟨w, hw, hwvalue⟩ := exists_isMagnitude (f := a.nf) (n := 5 * 2 ^ (precision a.nf - 3) - 1)
      (e := 4 - precision a.nf) (by cases a.nf <;> decide) (by cases a.nf <;> decide) (by cases a.nf <;> decide)
    refine ⟨w, hw, hwvalue.trans ?_⟩
    cases a.nf <;> norm_num [precision, roundoff]
  have hbelow := hv.le_one_sub_roundoff h
  have hnear := hround.nearest hfinite hw
  have hunit := roundoff_pos a.nf
  rw [hwvalue] at hnear
  by_contra hten
  have hup := (le_abs_self _).trans hnear
  rcases abs_cases (10 - 16 * roundoff a.nf - magnitude v * 10) with ⟨habs, _⟩ | ⟨habs, _⟩ <;> linarith

/-- A finite value of at least ten, divided by ten, stays finite and at least one, within the roundoff. -/
theorem fDiv_fTen_of_fGe (hv : IsMagnitude a.nf v) (h : fGe v (fTen a.nf) = true) :
    IsMagnitude a.nf (fDiv a v (fTen a.nf)) ∧ 1 ≤ magnitude (fDiv a v (fTen a.nf)) ∧
      magnitude (fDiv a v (fTen a.nf)) * 10 * (1 - roundoff a.nf) ≤ magnitude v := by
  have hten := hv.fGe_fTen_iff.1 h
  have hround := isRounding_fDiv_fTen a hv
  have hfinite := hround.isMagnitude_of_lt (lt_of_le_of_lt (by linarith) hv.lt_overflowThreshold)
  have hone := hround.le_magnitude hfinite (isMagnitude_fOne a.nf) (by rw [magnitude_fOne]; linarith)
  have hnormal : (2 : ℚ) ^ (minExp a.nf + precision a.nf) ≤ magnitude v / 10 := by
    calc (2 : ℚ) ^ (minExp a.nf + precision a.nf) ≤ 2 ^ (0 : Int) :=
          zpow_le_zpow_right₀ (by norm_num) (by cases a.nf <;> decide)
      _ ≤ magnitude v / 10 := by rw [zpow_zero]; linarith
  have hclose := (abs_le.1 (hround.close hfinite hnormal)).2
  have hsquare := mul_nonneg hround.nonneg (sq_nonneg (roundoff a.nf))
  have hpos := one_sub_roundoff_pos a.nf
  rw [magnitude_fOne] at hone
  refine ⟨hfinite, hone, ?_⟩
  calc magnitude (fDiv a v (fTen a.nf)) * 10 * (1 - roundoff a.nf)
      ≤ (magnitude v / 10 * (1 + roundoff a.nf)) * 10 * (1 - roundoff a.nf) := by gcongr; linarith
    _ ≤ magnitude v := by linarith

/-- `k` divisions by ten, of values of at least ten, leave a finite value within `k` roundoffs. -/
theorem divided_of_tests (k : Nat) (hv : IsMagnitude a.nf v) (h : ∀ j < k, fGe (divided a j v) (fTen a.nf) = true) :
    IsMagnitude a.nf (divided a k v) ∧ (k ≠ 0 → 1 ≤ magnitude (divided a k v)) ∧
      magnitude (divided a k v) * (10 ^ k * (1 - roundoff a.nf) ^ k) ≤ magnitude v := by
  have hpos := one_sub_roundoff_pos a.nf
  induction k with
  | zero => exact ⟨hv, fun h => absurd rfl h, by simp [divided]⟩
  | succ k ih =>
    obtain ⟨hfinite, _, hbound⟩ := ih fun j hj => h j (hj.trans k.lt_succ_self)
    obtain ⟨hfinite', hone, hstep⟩ := fDiv_fTen_of_fGe a hfinite (h k k.lt_succ_self)
    rw [divided_succ]
    refine ⟨hfinite', fun _ => hone, ?_⟩
    calc magnitude (fDiv a (divided a k v) (fTen a.nf)) * (10 ^ (k + 1) * (1 - roundoff a.nf) ^ (k + 1))
        = magnitude (fDiv a (divided a k v) (fTen a.nf)) * 10 * (1 - roundoff a.nf) *
            (10 ^ k * (1 - roundoff a.nf) ^ k) := by ring
      _ ≤ magnitude (divided a k v) * (10 ^ k * (1 - roundoff a.nf) ^ k) := by gcongr
      _ ≤ magnitude v := hbound

end tens

/-! ### Powers of ten (R105, R106) -/

section powers
variable (a : Arith) {k : Nat}

theorem multiplied_fOne_of_tenCap_le (hk : tenCap a.nf ≤ k) : multiplied a k (fOne a.nf) = .inf false := by
  have hcap : multiplied a (tenCap a.nf) (fOne a.nf) = .inf false := by
    rcases multiplied_cases a (tenCap a.nf) (isMagnitude_fOne a.nf) with ⟨hinf, _⟩ | ⟨hfinite, hlow, _⟩
    · exact hinf
    · rw [magnitude_fOne, one_mul] at hlow
      exact absurd hfinite.lt_overflowThreshold (not_lt.2 ((overflowThreshold_le_ten_pow a.nf).trans hlow))
  rw [← Nat.sub_add_cancel hk, multiplied, Function.iterate_add_apply]
  change multiplied a _ (multiplied a (tenCap a.nf) (fOne a.nf)) = _
  rw [hcap]
  exact Function.iterate_fixed (fMul_inf_fTen a) _

theorem isMagnitude_multiplied_fOne (hk : k < tenCap a.nf) : IsMagnitude a.nf (multiplied a k (fOne a.nf)) := by
  refine (multiplied_cases a k (isMagnitude_fOne a.nf)).elim (fun ⟨_, hover⟩ => ?_) And.left
  have hkb : k ≤ divisionBound a.nf := by rw [tenCap_eq] at hk; omega
  rw [magnitude_fOne, one_mul] at hover
  refine absurd (ten_pow_lt_overflowThreshold a.nf) (not_lt.2 ?_)
  calc overflowThreshold a.nf * (1 - roundoff a.nf) ^ divisionBound a.nf
      ≤ overflowThreshold a.nf * (1 - roundoff a.nf) ^ k :=
        mul_le_mul_of_nonneg_left (one_sub_roundoff_pow_le a.nf hkb) (overflowThreshold_pos a.nf).le
    _ ≤ 10 ^ k := hover
    _ ≤ 10 ^ divisionBound a.nf := by gcongr; norm_num

theorem multiplied_min_tenCap (k : Nat) : multiplied a (min k (tenCap a.nf)) (fOne a.nf) = multiplied a k (fOne a.nf) := by
  rcases le_total k (tenCap a.nf) with hk | hk
  · rw [min_eq_left hk]
  · rw [min_eq_right hk, multiplied_fOne_of_tenCap_le a le_rfl, multiplied_fOne_of_tenCap_le a hk]

theorem powerOfTen_eq (k : Int) : powerOfTen a k =
    if k < 0 then fDiv a (fOne a.nf) (multiplied a k.natAbs (fOne a.nf)) else multiplied a k.natAbs (fOne a.nf) := by
  rw [powerOfTen, timesTen_eq_multiplied, multiplied_min_tenCap]

theorem powerOfTen_natCast (k : Nat) : powerOfTen a k = multiplied a k (fOne a.nf) := by
  rw [powerOfTen_eq, if_neg (by omega), Int.natAbs_natCast]

theorem fDiv_fOne_inf : fDiv a (fOne a.nf) (.inf false) = fZero a.nf false := rfl

/-- A power of ten whose odd part fits the precision is computed without an error (R106 (a)). -/
theorem multiplied_fOne_exact (hfits : 5 ^ k < 2 ^ precision a.nf) (hk : k ≤ maxExp a.nf) :
    IsMagnitude a.nf (multiplied a k (fOne a.nf)) ∧ magnitude (multiplied a k (fOne a.nf)) = 10 ^ k := by
  induction k with
  | zero => exact ⟨isMagnitude_fOne a.nf, magnitude_fOne a.nf⟩
  | succ k ih =>
    obtain ⟨hfinite, hvalue⟩ := ih ((Nat.pow_le_pow_right (by norm_num) k.le_succ).trans_lt hfits) (by push_cast at hk; omega)
    have hround := isRounding_fMul_fTen a hfinite
    rw [hvalue, ← pow_succ] at hround
    have hmin : minExp a.nf ≤ 0 := by cases a.nf <;> decide
    obtain ⟨w, hw, hwvalue⟩ := exists_isMagnitude hfits (e := (k + 1 : Nat)) (by omega) hk
    rw [multiplied_succ]
    refine hround.exact hw (hwvalue.trans ?_)
    rw [zpow_natCast, Nat.cast_pow, ← mul_pow]
    norm_num

end powers

/-- Settles O33: the cap is where the running product has become `+infinity`, and from there on it stays there. -/
theorem powerOfTenCapIsHarmless : Obligations.PowerOfTenCapIsHarmless := by
  refine fun a k => ⟨?_, fun hk => ?_, fun hk => ?_⟩
  · rw [powerOfTen_eq, powerOfTenUncapped, timesTen_eq_multiplied]
  · rw [powerOfTen_eq, if_neg (by omega), multiplied_fOne_of_tenCap_le a (by omega)]
  · have hcap : 0 < tenCap a.nf := by cases a.nf <;> decide
    rw [powerOfTen_eq, if_pos (by omega), multiplied_fOne_of_tenCap_le a (by omega), fDiv_fOne_inf]

/-- Settles O34: `5 ^ 22` has 52 bits and `5 ^ 10` has 24. -/
theorem smallPowersOfTenAreExact : Obligations.SmallPowersOfTenAreExact := by
  intro a k hk
  have hodd : 5 ^ k < 2 ^ precision a.nf ∧ k ≤ maxExp a.nf := by
    obtain ⟨f, free⟩ := a
    cases f
    · have hk : k ≤ 10 := hk
      exact ⟨(Nat.pow_le_pow_right (by norm_num) hk).trans_lt (by norm_num [precision]), by simp only [maxExp]; omega⟩
    · have hk : k ≤ 22 := hk
      exact ⟨(Nat.pow_le_pow_right (by norm_num) hk).trans_lt (by norm_num [precision]), by simp only [maxExp]; omega⟩
  obtain ⟨⟨m, e, hpower, _⟩, hvalue⟩ := multiplied_fOne_exact a hodd.1 hodd.2
  refine ⟨m, e, by rw [powerOfTen_natCast, hpower], ?_⟩
  rw [hpower] at hvalue
  rw [realValue_false, ← hvalue]
  rfl

/-! ### The loops of `DEXPF` (R102 to R104) -/

section loops
variable (a : Arith) {v : Native}

/-- While the values are below one, multiplications by ten leave a finite value below ten. -/
theorem multiplied_of_tests (k : Nat) (hv : IsMagnitude a.nf v)
    (h : ∀ j < k, fLt (multiplied a j v) (fOne a.nf) = true) :
    IsMagnitude a.nf (multiplied a k v) ∧ (k ≠ 0 → magnitude (multiplied a k v) < 10) := by
  induction k with
  | zero => exact ⟨hv, fun h => absurd rfl h⟩
  | succ k ih =>
    obtain ⟨hfinite, _⟩ := ih fun j hj => h j (hj.trans k.lt_succ_self)
    obtain ⟨hfinite', hten⟩ := fMul_fTen_lt_ten a hfinite (hfinite.fLt_fOne_iff.1 (h k k.lt_succ_self))
    rw [multiplied_succ]
    exact ⟨hfinite', fun _ => hten⟩

/-- The first loop has ended after its bound: a value divided so often and still at least ten was beyond the format's range. -/
theorem exists_fGe_divided_eq_false (hv : IsMagnitude a.nf v) :
    ∃ k ≤ divisionBound a.nf, fGe (divided a k v) (fTen a.nf) = false := by
  by_contra hall
  have htests : ∀ j ≤ divisionBound a.nf, fGe (divided a j v) (fTen a.nf) = true := by simpa using hall
  obtain ⟨hfinite, _, hbound⟩ := divided_of_tests a _ hv fun j hj => htests j hj.le
  have hten := hfinite.fGe_fTen_iff.1 (htests _ le_rfl)
  have hpos := one_sub_roundoff_pos a.nf
  refine absurd hv.lt_overflowThreshold (not_lt.2 ?_)
  calc overflowThreshold a.nf
      ≤ 10 ^ (divisionBound a.nf + 1) * (1 - roundoff a.nf) ^ (divisionBound a.nf + 1) :=
        tenCap_eq a.nf ▸ overflowThreshold_le_ten_pow a.nf
    _ ≤ 10 ^ (divisionBound a.nf + 1) * (1 - roundoff a.nf) ^ divisionBound a.nf := by
        gcongr ?_ * ?_
        exact one_sub_roundoff_pow_le a.nf (Nat.le_succ _)
    _ = 10 * (10 ^ divisionBound a.nf * (1 - roundoff a.nf) ^ divisionBound a.nf) := by ring
    _ ≤ magnitude (divided a (divisionBound a.nf) v) *
          (10 ^ divisionBound a.nf * (1 - roundoff a.nf) ^ divisionBound a.nf) := by gcongr
    _ ≤ magnitude v := hbound

/-- The second loop has ended after its bound, even from the least positive value. -/
theorem fLt_multiplied_multiplicationBound (hv : IsMagnitude a.nf v) (hzero : fIsZero v = false) :
    fLt (multiplied a (multiplicationBound a.nf) v) (fOne a.nf) = false := by
  have hpos := one_sub_roundoff_pos a.nf
  rcases multiplied_cases a (multiplicationBound a.nf) hv with ⟨hinf, _⟩ | ⟨hfinite, hlow, _⟩
  · rw [hinf]
    rfl
  · rw [← Bool.not_eq_true, hfinite.fLt_fOne_iff, not_lt]
    calc 1 ≤ 2 ^ minExp a.nf * 10 ^ multiplicationBound a.nf * (1 - roundoff a.nf) ^ multiplicationBound a.nf :=
          one_le_minExp_mul_ten_pow a.nf
      _ ≤ magnitude v * 10 ^ multiplicationBound a.nf * (1 - roundoff a.nf) ^ multiplicationBound a.nf := by
          gcongr
          exact hv.two_zpow_minExp_le hzero
      _ ≤ magnitude (multiplied a (multiplicationBound a.nf) v) := hlow

/-- A loop whose test fails somewhere runs up to the first place where it does. -/
theorem exists_run_of_test_eq_false {test : Nat → Bool} (h : ∃ k, test k = false) :
    ∃ k, (∀ j < k, test j = true) ∧ test k = false :=
  ⟨Nat.find h, fun _ hj => Bool.eq_true_of_not_eq_false (Nat.find_min h hj), Nat.find_spec h⟩

/-- What the first loop leaves: a finite value that is not zero, at least one if it has run. -/
theorem isMagnitude_divided_of_tests {down : Nat} (hv : IsMagnitude a.nf v) (hzero : fIsZero v = false)
    (htests : ∀ j < down, fGe (divided a j v) (fTen a.nf) = true) :
    IsMagnitude a.nf (divided a down v) ∧ fIsZero (divided a down v) = false ∧
      (down ≠ 0 → 1 ≤ magnitude (divided a down v)) := by
  obtain ⟨hfinite, hone, _⟩ := divided_of_tests a down hv htests
  refine ⟨hfinite, ?_, hone⟩
  rcases eq_or_ne down 0 with rfl | hdown
  · exact hzero
  · exact fIsZero_eq_false_of_magnitude_pos (zero_lt_one.trans_le (hone hdown))

section runs
variable {a} {down up : Nat}

/-- The loops run at most as often as R104 says. -/
theorem loopsRun_bounds (hrun : LoopsRun a v down up) (hv : IsMagnitude a.nf v) (hzero : fIsZero v = false) :
    down ≤ divisionBound a.nf ∧ up ≤ multiplicationBound a.nf := by
  obtain ⟨htestDown, _, htestUp, _⟩ := hrun
  obtain ⟨hfinite, hzero', _⟩ := isMagnitude_divided_of_tests a hv hzero htestDown
  obtain ⟨k, hk, hend⟩ := exists_fGe_divided_eq_false a hv
  constructor
  · by_contra hlt
    exact Bool.false_ne_true (hend.symm.trans (htestDown k (by omega)))
  · by_contra hlt
    exact Bool.false_ne_true
      ((fLt_multiplied_multiplicationBound a hfinite hzero').symm.trans (htestUp _ (not_le.1 hlt)))

/-- At most one loop runs: what a division leaves is at least one. -/
theorem loopsRun_one_is_zero (hrun : LoopsRun a v down up) (hv : IsMagnitude a.nf v) (hzero : fIsZero v = false) :
    down = 0 ∨ up = 0 := by
  obtain ⟨htestDown, _, htestUp, _⟩ := hrun
  obtain ⟨hfinite, _, hone⟩ := isMagnitude_divided_of_tests a hv hzero htestDown
  by_contra! hboth
  obtain ⟨hdown, hup⟩ := hboth
  exact absurd (hfinite.fLt_fOne_iff.1 (htestUp 0 (Nat.pos_of_ne_zero hup))) (not_lt.2 (hone hdown))

/-- What the loops leave is finite and below ten. -/
theorem loopsRun_result (hrun : LoopsRun a v down up) (hv : IsMagnitude a.nf v) (hzero : fIsZero v = false) :
    IsMagnitude a.nf (multiplied a up (divided a down v)) ∧ fGe (multiplied a up (divided a down v)) (fTen a.nf) = false := by
  obtain ⟨htestDown, hendDown, htestUp, _⟩ := hrun
  obtain ⟨hfinite, _⟩ := isMagnitude_divided_of_tests a hv hzero htestDown
  obtain ⟨hfinite', hten⟩ := multiplied_of_tests a up hfinite htestUp
  refine ⟨hfinite', ?_⟩
  rcases eq_or_ne up 0 with rfl | hup
  · exact hendDown
  · rw [← Bool.not_eq_true, hfinite'.fGe_fTen_iff, not_le]
    exact hten hup

end runs

theorem exists_loopsRun (hv : IsMagnitude a.nf v) (hzero : fIsZero v = false) : ∃ down up, LoopsRun a v down up := by
  obtain ⟨k, _, hk⟩ := exists_fGe_divided_eq_false a hv
  obtain ⟨down, htestDown, hendDown⟩ := exists_run_of_test_eq_false
    (test := fun k => fGe (divided a k v) (fTen a.nf)) ⟨k, hk⟩
  obtain ⟨hfinite, hzero', _⟩ := isMagnitude_divided_of_tests a hv hzero htestDown
  obtain ⟨up, htestUp, hendUp⟩ := exists_run_of_test_eq_false
    (test := fun k => fLt (multiplied a k (divided a down v)) (fOne a.nf))
    ⟨_, fLt_multiplied_multiplicationBound a hfinite hzero'⟩
  exact ⟨down, up, htestDown, hendDown, htestUp, hendUp⟩

/-! #### The loops with fuel -/

/-- A loop with fuel that counts its runs by `d`, as both loops of `DEXPF` are. -/
def runWhile (test : Native → Bool) (next : Native → Native) (d : Int) : Nat → Native → Int → Native × Int
  | 0, m, e => (m, e)
  | fuel + 1, m, e => if test m then runWhile test next d fuel (next m) (e + d) else (m, e)

theorem scaleDown_eq_runWhile (fuel : Nat) (v : Native) (e : Int) :
    scaleDown a fuel v e = runWhile (fGe · (fTen a.nf)) (fDiv a · (fTen a.nf)) 1 fuel v e := by
  induction fuel generalizing v e with
  | zero => rfl
  | succ fuel ih => rw [scaleDown, runWhile, ih]

theorem scaleUp_eq_runWhile (fuel : Nat) (v : Native) (e : Int) :
    scaleUp a fuel v e = runWhile (fLt · (fOne a.nf)) (fMul a · (fTen a.nf)) (-1) fuel v e := by
  induction fuel generalizing v e with
  | zero => rfl
  | succ fuel ih => rw [scaleUp, runWhile, ih, sub_eq_add_neg]

/-- With fuel for its runs a loop ends by its test. -/
theorem runWhile_of_tests {test : Native → Bool} {next : Native → Native} {d : Int} {fuel k : Nat} (hk : k ≤ fuel)
    (v : Native) (e : Int) (htests : ∀ j < k, test (next^[j] v) = true) (hend : test (next^[k] v) = false) :
    runWhile test next d fuel v e = (next^[k] v, e + k * d) := by
  induction k generalizing fuel v e with
  | zero =>
    have hend : test v = false := hend
    cases fuel <;> simp [runWhile, hend]
  | succ k ih =>
    have hfirst : test v = true := htests 0 k.succ_pos
    obtain ⟨fuel, rfl⟩ : ∃ n, fuel = n + 1 := ⟨fuel - 1, by omega⟩
    rw [runWhile, if_pos hfirst, ih (Nat.le_of_succ_le_succ hk) _ _ (fun j hj => htests (j + 1) (Nat.succ_lt_succ hj)) hend,
      Function.iterate_succ_apply]
    congr 1
    push_cast
    ring

/-- The fuel is enough: the loops of `DEXPF` end as those without fuel do (R104, R211 (a)). -/
theorem decimalScale_of_loopsRun {down up : Nat} (hrun : LoopsRun a v down up) (hv : IsMagnitude a.nf v)
    (hzero : fIsZero v = false) : decimalScale a v = (multiplied a up (divided a down v), (down : Int) - up) := by
  have hfuel : divisionBound a.nf ≤ loopFuel ∧ multiplicationBound a.nf ≤ loopFuel := by cases a.nf <;> decide
  obtain ⟨hdown, hup⟩ := loopsRun_bounds hrun hv hzero
  obtain ⟨htestDown, hendDown, htestUp, hendUp⟩ := hrun
  have hfirst := runWhile_of_tests (test := (fGe · (fTen a.nf))) (next := (fDiv a · (fTen a.nf))) (d := 1)
    (hdown.trans hfuel.1) v 0 htestDown hendDown
  have hsecond := runWhile_of_tests (test := (fLt · (fOne a.nf))) (next := (fMul a · (fTen a.nf))) (d := -1)
    (hup.trans hfuel.2) (divided a down v) (0 + down * 1) htestUp hendUp
  rw [decimalScale, scaleDown_eq_runWhile, hfirst, scaleUp_eq_runWhile]
  refine hsecond.trans (Prod.ext rfl ?_)
  ring

theorem decimalExponent_of_loopsRun {down up : Nat} (hrun : LoopsRun a v down up) (hv : IsMagnitude a.nf v)
    (hzero : fIsZero v = false) : decimalExponent a v = (down : Int) - up := by
  rw [decimalExponent, hzero, decimalScale_of_loopsRun a hrun hv hzero]
  rfl

/-- `DEXPF` is what R103 says without fuel. -/
theorem isDecimalExponent_decimalExponent (hv : IsMagnitude a.nf v) : IsDecimalExponent a v (decimalExponent a v) := by
  cases hzero : fIsZero v with
  | true => exact .inl ⟨hzero, by rw [decimalExponent, hzero]; rfl⟩
  | false =>
    obtain ⟨down, up, hrun⟩ := exists_loopsRun a hv hzero
    exact .inr ⟨hzero, down, up, hrun, decimalExponent_of_loopsRun a hrun hv hzero⟩

/-- The range of `DEXPF` (R104). -/
theorem decimalExponent_bounds (hv : IsMagnitude a.nf v) :
    decimalExponent a v ≤ divisionBound a.nf ∧ -(multiplicationBound a.nf : Int) ≤ decimalExponent a v := by
  rcases isDecimalExponent_decimalExponent a hv with ⟨_, he⟩ | ⟨hzero, down, up, hrun, he⟩
  · omega
  · have := loopsRun_bounds hrun hv hzero
    omega

end loops

theorem isMagnitude_fAbs_fOfBits {f : NF} {b : BitVec f.width} (h : fIsFinite (fOfBits f b) = true) :
    IsMagnitude f (fAbs (fOfBits f b)) := isMagnitude_fAbs (fCanonical_fOfBits f b) h

theorem fIsZero_fAbs (v : Native) : fIsZero (fAbs v) = fIsZero v := by cases v <;> rfl

/-- Settles O35, from the bounds on the runs of the loops, which the fuel exceeds. -/
theorem decimalScaleEndsBetweenOneAndTen : Obligations.DecimalScaleEndsBetweenOneAndTen := by
  intro a b hfinite hzero v
  have hv : IsMagnitude a.nf v := isMagnitude_fAbs_fOfBits hfinite
  have hzero : fIsZero v = false := (fIsZero_fAbs _).trans hzero
  obtain ⟨down, up, hrun⟩ := exists_loopsRun a hv hzero
  obtain ⟨hleft, hten⟩ := loopsRun_result hrun hv hzero
  have hscale := decimalScale_of_loopsRun a hrun hv hzero
  refine ⟨down, up, hrun, loopsRun_one_is_zero hrun hv hzero, decimalExponent_of_loopsRun a hrun hv hzero, ?_⟩
  rw [hscale]
  obtain ⟨_, _, _, hendUp⟩ := hrun
  exact ⟨rfl, hendUp, hten, hleft.isFinite⟩

/-- Settles O36, since rounding errors of 324 multiplications do not add up to a factor of ten. -/
theorem decimalExponentRange : Obligations.DecimalExponentRange := by
  intro a b hfinite v
  have hv : IsMagnitude a.nf v := isMagnitude_fAbs_fOfBits hfinite
  have hbounds := decimalExponent_bounds a hv
  have hruns := fun (hzero : fIsZero v = false) down up (hrun : LoopsRun a v down up) => loopsRun_bounds hrun hv hzero
  obtain ⟨f, free⟩ := a
  cases f <;> exact ⟨hbounds.1, hbounds.2, hruns⟩

/-! ### DEXP (R110) -/

/-- A command that is not a conversion is decoded from its operation code alone (R59). -/
theorem decode_of_opField_encode {h : Header} {i : Instr} (hconv : ¬ IsConversionCode (opField (encode i)))
    (hop : opField h = opField (encode i)) : decode h = .ok i :=
  (decode_congr hop fun hc => absurd (hop ▸ hc) hconv).trans (decode_encode i)

section dexp
variable (c : Config) (d : Nat) (x : Scalar)

theorem dexpResponse_of_not_finite (h : fIsFinite (floatOperand c x) = false) : dexpResponse c d x = ⟨0, 0, 0b1000#4⟩ := by
  have hspecial : fIsNaN (floatOperand c x) || fIsInf (floatOperand c x) := by
    simpa [fIsFinite, or_iff_not_imp_left] using h
  rw [dexpResponse, if_pos hspecial]
  rfl

theorem dexpResponse_of_finite (h : fIsFinite (floatOperand c x) = true) :
    dexpResponse c d x = ⟨0, BitVec.ofInt 64 (decimalExponent (c.arith d) (fAbs (floatOperand c x))), 0b0000#4⟩ := by
  have hordinary : ¬ (fIsNaN (floatOperand c x) || fIsInf (floatOperand c x)) := by simpa [fIsFinite] using h
  rw [dexpResponse, if_neg hordinary]
  rfl

/-- `Y` holds `DEXPF` whole (R104, R110). -/
theorem toInt_ofInt_decimalExponent (a : Arith) {v : Native} (hv : IsMagnitude a.nf v) :
    (BitVec.ofInt 64 (decimalExponent a v)).toInt = decimalExponent a v := by
  have hbounds := decimalExponent_bounds a hv
  have hsmall : divisionBound a.nf ≤ 308 ∧ multiplicationBound a.nf ≤ 324 := by cases a.nf <;> decide
  exact BitVec.toInt_ofInt_eq_self (by norm_num) (by omega) (by omega)

end dexp

/-- Settles O37, from the range of `DEXPF` and its independence of the free bits. -/
theorem dexpResult : Obligations.DexpResult := by
  refine ⟨fun _ hop => decode_of_opField_encode (i := .dexp) (not_isConversionCode_iff.2 (.inr (by decide))) hop,
    fun s => ⟨fun h => answers_of_response (dexpResponse_of_not_finite s.cfg s.draw s.portX h), fun h => ?_⟩⟩
  have hv : IsMagnitude s.cfg.nf (fAbs (floatOperand s.cfg s.portX)) := isMagnitude_fAbs_fOfBits h
  refine ⟨_, answers_of_response (dexpResponse_of_finite s.cfg s.draw s.portX h), fun free => ?_, fun hzero => ?_⟩
  · rw [toInt_ofInt_decimalExponent (s.cfg.arith s.draw) hv, ← decimalExponent_free (s.cfg.arith s.draw) free hv.not_nan]
    exact isDecimalExponent_decimalExponent ⟨s.cfg.nf, free⟩ hv
  · have hmag : fIsZero (fAbs (floatOperand s.cfg s.portX)) = true := (fIsZero_fAbs _).trans hzero
    rw [decimalExponent, if_pos hmag]
    rfl

/-! ### The NaN of DEC (R125, R126) -/

section dec
variable (a : Arith)

/-- A power of ten below the cap is finite and at least one. -/
theorem one_le_magnitude_multiplied_fOne {k : Nat} (hk : k < tenCap a.nf) :
    IsMagnitude a.nf (multiplied a k (fOne a.nf)) ∧ 1 ≤ magnitude (multiplied a k (fOne a.nf)) := by
  have hfinite := isMagnitude_multiplied_fOne a hk
  refine ⟨hfinite, ?_⟩
  have hfactor : 1 ≤ 10 * (1 - roundoff a.nf) := by cases a.nf <;> norm_num [roundoff, precision]
  rcases multiplied_cases a k (isMagnitude_fOne a.nf) with ⟨hinf, _⟩ | ⟨_, hlow, _⟩
  · have hnot := hfinite.not_inf
    rw [hinf] at hnot
    cases hnot
  · rw [magnitude_fOne, one_mul, ← mul_pow] at hlow
    exact (one_le_pow₀ hfactor).trans hlow

/-- A finite magnitude over one of at least one is finite. -/
theorem isMagnitude_fDiv {u v : Native} (hu : IsMagnitude a.nf u) (hv : IsMagnitude a.nf v) (hone : 1 ≤ magnitude v) :
    IsMagnitude a.nf (fDiv a u v) :=
  (isRounding_fDiv a hu hv (fIsZero_eq_false_of_magnitude_pos (zero_lt_one.trans_le hone))).isMagnitude_of_lt
    ((div_le_self hu.nonneg hone).trans_lt hu.lt_overflowThreshold)

/-- The reciprocal of a power of ten is finite: it is zero from the cap on, and at most one before. -/
theorem isMagnitude_fDiv_fOne_multiplied (k : Nat) : IsMagnitude a.nf (fDiv a (fOne a.nf) (multiplied a k (fOne a.nf))) := by
  rcases le_or_gt (tenCap a.nf) k with hk | hk
  · rw [multiplied_fOne_of_tenCap_le a hk, fDiv_fOne_inf]
    exact ⟨_, _, rfl, fCanonical_fZero ..⟩
  · obtain ⟨hfinite, hone⟩ := one_le_magnitude_multiplied_fOne a hk
    exact isMagnitude_fDiv a (isMagnitude_fOne a.nf) hfinite hone

/-- A power of ten is infinite exactly from the cap on (R106 (b)). -/
theorem fIsInf_powerOfTen (k : Int) : fIsInf (powerOfTen a k) = true ↔ (tenCap a.nf : Int) ≤ k := by
  rw [powerOfTen_eq]
  split
  · rw [(isMagnitude_fDiv_fOne_multiplied a k.natAbs).not_inf, iff_false_left Bool.false_ne_true]
    omega
  · rcases le_or_gt (tenCap a.nf) k.natAbs with hk | hk
    · rw [multiplied_fOne_of_tenCap_le a hk]
      exact iff_of_true rfl (by omega)
    · rw [(isMagnitude_multiplied_fOne a hk).not_inf]
      exact iff_of_false Bool.false_ne_true (by omega)

/-- A magnitude of at least one, divided by a finite value of at least one, does not underflow. -/
theorem fIsZero_fDiv_of_one_le {u v : Native} (hu : IsMagnitude a.nf u) (hv : IsMagnitude a.nf v) (huone : 1 ≤ magnitude u)
    (hvone : 1 ≤ magnitude v) : fIsZero (fDiv a u v) = false := by
  have hpos := zero_lt_one.trans_le hvone
  refine (isRounding_fDiv a hu hv (fIsZero_eq_false_of_magnitude_pos hpos)).not_isZero ((le_div_iff₀ hpos).2 ?_)
  calc (2 : ℚ) ^ minExp a.nf * magnitude v ≤ 2 ^ minExp a.nf * 2 ^ (-minExp a.nf) := by
        gcongr
        exact hv.lt_overflowThreshold.le.trans (overflowThreshold_le_two_zpow a.nf)
    _ = 1 := by rw [← zpow_add₀ two_ne_zero, add_neg_cancel, zpow_zero]
    _ ≤ magnitude u := huone

end dec

section mantissa
variable (c : Config) (d : Nat) (w : BitVec c.W)

/-- The mantissa over the multiplier, as DEC computes it (R124). -/
def scaledMantissa : Native := fDiv (c.arith d) (fFromUnsigned c.nf (mantissa w)) (multiplierFloat (c.arith d) c)

theorem decodedValue_eq : decodedValue c d w =
    if negative w then fNeg (fMul (c.arith d) (powerOfTen (c.arith d) (exponent w)) (scaledMantissa c d w))
    else fMul (c.arith d) (powerOfTen (c.arith d) (exponent w)) (scaledMantissa c d w) := by
  rw [decodedValue, fields_eq, scaledMantissa]

/-- The multiplier is finite: its exponent is below the cap (R9, R107). -/
theorem one_le_magnitude_multiplierFloat :
    IsMagnitude c.nf (multiplierFloat (c.arith d) c) ∧ 1 ≤ magnitude (multiplierFloat (c.arith d) c) := by
  have hD : c.D < tenCap c.nf := c.D_le.trans_lt (by cases c.nf <;> decide)
  rw [multiplierFloat, powerOfTen_natCast]
  exact one_le_magnitude_multiplied_fOne (c.arith d) hD

/-- A mantissa has at most 125 bits (R8), so it converts to a finite value in both formats. -/
theorem isMagnitude_fFromUnsigned_mantissa : IsMagnitude c.nf (fFromUnsigned c.nf (mantissa w)) := by
  refine (isRounding_fFromUnsigned c.nf (mantissa w)).isMagnitude_of_lt ?_
  have hM : c.M ≤ 125 := by
    have := c.width_le
    have := c.two_le_E
    omega
  have hlt : (mantissa w : ℚ) < 2 ^ 125 := by
    exact_mod_cast (BitVec.isLt _).trans_le (Nat.pow_le_pow_right two_pos hM)
  obtain ⟨u, hu, hvalue⟩ : ∃ u, IsMagnitude c.nf u ∧ magnitude u = (2 ^ 22 : Nat) * 2 ^ (103 : Int) :=
    exists_isMagnitude (by cases c.nf <;> decide) (by cases c.nf <;> decide) (by cases c.nf <;> decide)
  calc (mantissa w : ℚ) ≤ magnitude u := hlt.le.trans (by rw [hvalue]; norm_num)
    _ < overflowThreshold c.nf := hu.lt_overflowThreshold

theorem isMagnitude_scaledMantissa : IsMagnitude c.nf (scaledMantissa c d w) :=
  have ⟨hmult, hone⟩ := one_le_magnitude_multiplierFloat c d
  isMagnitude_fDiv (c.arith d) (isMagnitude_fFromUnsigned_mantissa c w) hmult hone

theorem fIsZero_scaledMantissa : fIsZero (scaledMantissa c d w) = true ↔ mantissa w = 0 := by
  refine ⟨fun hzero => ?_, fun hzero => ?_⟩
  · by_contra hm
    have hfinite := isMagnitude_fFromUnsigned_mantissa c w
    have hone : 1 ≤ magnitude (fFromUnsigned c.nf (mantissa w)) := by
      rw [← magnitude_fOne c.nf]
      refine (isRounding_fFromUnsigned c.nf (mantissa w)).le_magnitude hfinite (isMagnitude_fOne c.nf) ?_
      rw [magnitude_fOne]
      exact_mod_cast Nat.one_le_iff_ne_zero.2 hm
    obtain ⟨hmult, hmultOne⟩ := one_le_magnitude_multiplierFloat c d
    exact Bool.false_ne_true ((fIsZero_fDiv_of_one_le (c.arith d) hfinite hmult hone hmultOne).symm.trans hzero)
  · have hquot : fDiv (c.arith d) (fFromUnsigned c.nf 0) (multiplierFloat (c.arith d) c) = fZero c.nf false :=
      fDiv_fZero_of_positive (c.arith d) (positive_powerOfTen (c.arith d) (Int.natCast_nonneg c.D))
    rw [scaledMantissa, hzero, hquot]
    rfl

/-- DEC computes a NaN exactly of an infinite power of ten and a zero mantissa: the mantissa's part is never infinite
(R125, R126). -/
theorem fIsNaN_decodedValue_iff :
    fIsNaN (decodedValue c d w) = true ↔ (tenCap c.nf : Int) ≤ exponent w ∧ mantissa w = 0 := by
  have hpower : fIsNaN (powerOfTen (c.arith d) (exponent w)) = false := (powerOfTen_free (c.arith d) 0 (exponent w)).1
  have hmant := isMagnitude_scaledMantissa c d w
  have hsign (v : Native) : fIsNaN (if negative w then fNeg v else v) = fIsNaN v := by
    cases negative w <;> cases v <;> rfl
  have hinf : fIsInf (powerOfTen (c.arith d) (exponent w)) = true ↔ (tenCap c.nf : Int) ≤ exponent w :=
    fIsInf_powerOfTen (c.arith d) (exponent w)
  rw [decodedValue_eq, hsign, fIsNaN_fMul, ← fIsZero_scaledMantissa c d w, ← hinf]
  simp [mulValid, hpower, hmant.not_nan, hmant.not_inf]

theorem fCanonical_decodedValue : fCanonical c.nf (decodedValue c d w) := by
  rw [decodedValue_eq]
  split
  · exact fCanonical_fNeg (fCanonical_fMul ..)
  · exact fCanonical_fMul ..

/-- `Y` holds the encoding of what DEC computes. -/
theorem fOfBits_decResponse : fOfBits c.nf ((decResponse c d w).y.setWidth c.nf.width) = decodedValue c d w := by
  have hwidth : c.nf.width ≤ 64 := by cases c.nf <;> decide
  rw [decResponse, BitVec.setWidth_setWidth_of_le _ hwidth, BitVec.setWidth_eq,
    fOfBits_fBits _ (fCanonical_decodedValue c d w)]

end mantissa

/-- Settles O42: the product is invalid there alone, and DEC's response holds it whatever it is. -/
theorem decGivesNaNOnInfinityTimesZero : Obligations.DecGivesNaNOnInfinityTimesZero := by
  refine fun s => ⟨fIsNaN_decodedValue_iff s.cfg s.draw s.portA, fun hexp hmant => ⟨_, answers_of_response rfl, ?_⟩⟩
  change fIsNaN (fOfBits s.cfg.nf ((decResponse s.cfg s.draw s.portA).y.setWidth s.cfg.nf.width)) = true
  rw [fOfBits_decResponse]
  exact (fIsNaN_decodedValue_iff s.cfg s.draw s.portA).2 ⟨hexp, hmant⟩

end Sys2Proof.Machine
end

section
/-! SUPPORT and PROOFS. The statements of 42_customfloat_codec.md: ZERO (R120), ENC and the sign of its operand (R122, R123), DEC
and the sign of its operand (R124, R128). -/

namespace Sys2Proof.Machine

open Sys2Proof.Safety

/-! ### ZERO (R120) -/

/-- Settles O38: ZERO's response is a constant, and code 0 is no conversion's. -/
theorem zeroResult : Obligations.ZeroResult :=
  ⟨fun _ hop => decode_of_opField_encode (i := .zero) (not_isConversionCode_iff.2 (.inl rfl)) hop,
    fun _ => answers_of_response rfl⟩

/-! ### What flipping a sign leaves as it is (R123, R128) -/

section signs
variable (v : Native)

theorem fAbs_fNeg : fAbs (fNeg v) = fAbs v := by cases v <;> rfl

theorem fIsNaN_fNeg : fIsNaN (fNeg v) = fIsNaN v := by cases v <;> rfl

theorem fIsInf_fNeg : fIsInf (fNeg v) = fIsInf v := by cases v <;> rfl

theorem fIsFinite_fNeg : fIsFinite (fNeg v) = fIsFinite v := by rw [fIsFinite, fIsNaN_fNeg, fIsInf_fNeg, fIsFinite]

theorem fIsZero_fNeg : fIsZero (fNeg v) = fIsZero v := by cases v <;> rfl

theorem signOf_fNeg : signOf (fNeg v) = !signOf v := by cases v <;> rfl

theorem fNeg_fNeg : fNeg (fNeg v) = v := by cases v <;> simp [fNeg]

end signs

/-- Packing with the other sign flips the word's sign, and the status is the same (R63). -/
theorem packed_not (c : Config) (s : Bool) (e : Int) (m : Nat) :
    (packed c (!s) e m).r = flipSign (packed c s e m).r ∧ (packed c (!s) e m).st = (packed c s e m).st := by
  refine ⟨?_, rfl⟩
  rw [packed_eq, packed_eq]
  exact word_ext (by simp) (by simp) (by simp)

/-! ### ENC (R122) -/

theorem nan_or_inf_eq (v : Native) : (fIsNaN v || fIsInf v) = !fIsFinite v := by simp [fIsFinite]

theorem fIsFinite_of_isZero {v : Native} (h : fIsZero v = true) : fIsFinite v = true := by
  cases v with
  | nan => cases h
  | inf => cases h
  | fin => rfl

/-- ENC takes the sign by a comparison with zero; of a finite value that is not zero that is its sign. -/
theorem fLt_fZero_of_nonzero (f : NF) {v : Native} (hfinite : fIsFinite v = true) (hzero : fIsZero v = false) :
    fLt v (fZero f false) = signOf v := by
  cases v with
  | nan => cases hfinite
  | inf => cases hfinite
  | fin s m e =>
    have hm : (0 : ℚ) < m := by exact_mod_cast Nat.pos_of_ne_zero (by simpa [fIsZero] using hzero)
    have hpos : (0 : ℚ) < m * 2 ^ e := by positivity
    rw [Bool.eq_iff_iff, fZero, fLt_fin_iff, realValue_false, Nat.cast_zero, zero_mul, realValue_eq]
    cases s <;> simp [signFactor, signOf, hpos, hpos.le]

theorem powerOfTenUncapped_eq (a : Arith) (k : Int) : powerOfTenUncapped a k = powerOfTen a k :=
  (powerOfTenCapIsHarmless a k).1.symm

/-- The value of which `MANU` takes the integer part (R108), with every multiplication of its powers of ten. -/
def scaledValue (a : Arith) (c : Config) (mag : Native) (e : Int) : Native :=
  fMul a (fDiv a mag (powerOfTenUncapped a e)) (powerOfTenUncapped a c.D)

theorem mantissaUnsigned_eq (a : Arith) (c : Config) (mag : Native) (e : Int) : mantissaUnsigned a c mag e =
    if fIsFinite (scaledValue a c mag e) then some (fTrunc (scaledValue a c mag e)) else none := by
  rw [mantissaUnsigned, multiplierFloat, scaledValue, powerOfTenUncapped_eq, powerOfTenUncapped_eq]

theorem status_decide_oorX_oorM (p q : Prop) [Decidable p] [Decidable q] :
    status (decide p) (decide q) false = (if p then 0b0001#4 else 0b0000#4) ||| (if q then 0b0010#4 else 0b0000#4) := by
  by_cases hp : p <;> by_cases hq : q <;> simp [status, hp, hq]

/-- `pack(s, e, m)` with its flags as the ranges say them (R63, R171, R172). -/
theorem packed_eq_ite (c : Config) (s : Bool) (e : Int) (m : Nat) : packed c s e m =
    ⟨cfWord s (BitVec.ofInt c.E e) (BitVec.ofNat c.M m), 0,
      (if e < c.EMIN ∨ c.EMAX < e then 0b0001#4 else 0b0000#4) ||| (if c.MMAX < m then 0b0010#4 else 0b0000#4)⟩ := by
  rw [packed_eq, ← status_decide_oorX_oorM, Bool.decide_or]
  rfl

theorem inv_invalid (c : Config) : (Response.invalid c).inv = true := by
  change invStatus.getLsbD 3 = true
  decide

section enc
variable {c : Config} (d : Nat) {x : Scalar}

theorem encResponse_of_not_finite (h : fIsFinite (floatOperand c x) = false) : encResponse c d x = Response.invalid c := by
  rw [encResponse, nan_or_inf_eq, h]
  rfl

theorem encResponse_of_finite (h : fIsFinite (floatOperand c x) = true) : encResponse c d x =
    if fIsZero (floatOperand c x) then ⟨0, 0, 0b0000#4⟩
    else
      let mag := fAbs (floatOperand c x)
      let e := decimalExponent (c.arith d) mag
      (mantissaUnsigned (c.arith d) c mag e).elim (Response.invalid c)
        (packed c (fLt (floatOperand c x) (fZero c.nf false)) e) := by
  rw [encResponse, nan_or_inf_eq, h, Bool.not_true, if_neg Bool.false_ne_true]
  dsimp only
  rw [fIsZero_fAbs]
  split
  · rfl
  · cases mantissaUnsigned .. <;> rfl

theorem encResponse_of_zero (h : fIsZero (floatOperand c x) = true) : encResponse c d x = ⟨0, 0, 0b0000#4⟩ := by
  rw [encResponse_of_finite d (fIsFinite_of_isZero h), if_pos h]

/-- A finite operand that is not zero is refused where the scaled value is not finite, and otherwise packed with its sign; the free
bits show in neither. -/
theorem encResponse_of_nonzero (free : BitVec 64) (hfinite : fIsFinite (floatOperand c x) = true)
    (hzero : fIsZero (floatOperand c x) = false) : encResponse c d x =
      let mag := fAbs (floatOperand c x)
      let e := decimalExponent ⟨c.nf, free⟩ mag
      let t := scaledValue ⟨c.nf, free⟩ c mag e
      if fIsFinite t then packed c (signOf (floatOperand c x)) e (fTrunc t) else Response.invalid c := by
  have hmag : fIsNaN (fAbs (floatOperand c x)) = false := (isMagnitude_fAbs_fOfBits hfinite).not_nan
  have hexp : decimalExponent (c.arith d) (fAbs (floatOperand c x)) = decimalExponent ⟨c.nf, free⟩ (fAbs (floatOperand c x)) :=
    decimalExponent_free ⟨c.nf, free⟩ (Config.freeNaN d) hmag
  have hmant (e : Int) : mantissaUnsigned (c.arith d) c (fAbs (floatOperand c x)) e =
      mantissaUnsigned ⟨c.nf, free⟩ c (fAbs (floatOperand c x)) e :=
    mantissaUnsigned_free ⟨c.nf, free⟩ (Config.freeNaN d) c _ e
  rw [encResponse_of_finite d hfinite, hzero, if_neg Bool.false_ne_true, fLt_fZero_of_nonzero c.nf hfinite hzero]
  simp only [hexp, hmant, mantissaUnsigned_eq]
  split <;> rfl

end enc

/-- Settles O39: ENC's cases one by one, with the exponent of R103's loops and powers of ten without the cap. -/
theorem encResult : Obligations.EncResult := by
  refine ⟨fun _ hop => decode_of_opField_encode (i := .enc) (not_isConversionCode_iff.2 (.inr (by decide))) hop,
    fun s free => ⟨fun h => answers_of_response (encResponse_of_not_finite s.draw h),
      fun h => answers_of_response (encResponse_of_zero s.draw h), fun hfinite hzero => ?_⟩⟩
  have henc := encResponse_of_nonzero s.draw free hfinite hzero
  exact ⟨_, isDecimalExponent_decimalExponent ⟨s.cfg.nf, free⟩ (isMagnitude_fAbs_fOfBits hfinite),
    fun ht => answers_of_response (henc.trans (if_neg (Bool.eq_false_iff.1 ht))),
    fun ht => answers_of_response (henc.trans ((if_pos ht).trans (packed_eq_ite ..)))⟩

/-- The sign of an operand goes into the sign of the packed word and nowhere else (R123 (e)). -/
theorem encResponse_of_fNeg {c : Config} (d d' : Nat) {x x' : Scalar} (hzero : fIsZero (floatOperand c x) = false)
    (hneg : floatOperand c x' = fNeg (floatOperand c x)) (hvalid : (encResponse c d x).inv = false) :
    (encResponse c d' x').r = flipSign (encResponse c d x).r ∧ (encResponse c d' x').st = (encResponse c d x).st := by
  have hfinite : fIsFinite (floatOperand c x) = true := by
    by_contra hspecial
    rw [encResponse_of_not_finite d (Bool.eq_false_iff.2 hspecial), inv_invalid] at hvalid
    cases hvalid
  have henc := encResponse_of_nonzero d 0 hfinite hzero
  have henc' := encResponse_of_nonzero d' 0 (x := x') (by rw [hneg, fIsFinite_fNeg, hfinite])
    (by rw [hneg, fIsZero_fNeg, hzero])
  rw [hneg, fAbs_fNeg, signOf_fNeg] at henc'
  rw [henc']
  rw [henc] at hvalid ⊢
  dsimp only at hvalid ⊢
  split_ifs at hvalid ⊢ with ht
  · exact packed_not ..
  · rw [inv_invalid] at hvalid
    cases hvalid

/-- Settles O40: ENC takes the magnitude and the sign apart, and packs them into fields apart. -/
theorem encSignSymmetry : Obligations.EncSignSymmetry :=
  fun _ _ _ d d' hzero hneg hvalid => encResponse_of_fNeg d d' hzero hneg hvalid

/-! ### DEC (R124, R128) -/

/-- Settles O41: what DEC computes, with powers of ten without the cap. -/
theorem decResult : Obligations.DecResult := by
  refine ⟨fun _ hop => decode_of_opField_encode (i := .dec) (not_isConversionCode_iff.2 (.inr (by decide))) hop,
    fun s => answers_of_response ?_⟩
  simp only [powerOfTenUncapped_eq]
  change decResponse s.cfg s.draw s.portA = _
  rw [decResponse, decodedValue_eq]
  rfl

theorem decodedValue_flipSign (c : Config) (d : Nat) (w : BitVec c.W) :
    decodedValue c d (flipSign w) = fNeg (decodedValue c d w) := by
  have hmant : scaledMantissa c d (flipSign w) = scaledMantissa c d w := by rw [scaledMantissa, mantissa_flipSign, scaledMantissa]
  rw [decodedValue_eq, decodedValue_eq, negative_flipSign, exponent_flipSign, hmant]
  cases negative w with
  | false => rfl
  | true => exact (fNeg_fNeg _).symm

/-- Negation flips the top bit of a value's encoding. -/
theorem fBits_fNeg {f : NF} {v : Native} (h : fCanonical f v) :
    fBits f (fNeg v) = fBits f v ^^^ BitVec.twoPow f.width (f.width - 1) := by
  rw [← fBits_fNeg_fOfBits, fOfBits_fBits f h]

theorem setWidth_twoPow_sign (f : NF) :
    (BitVec.twoPow f.width (f.width - 1)).setWidth 64 = BitVec.twoPow 64 (f.width - 1) := by cases f <;> decide

theorem decResponse_flipSign_y (c : Config) (d : Nat) (w : BitVec c.W) :
    (decResponse c d (flipSign w)).y = (decResponse c d w).y ^^^ BitVec.twoPow 64 (c.nf.width - 1) := by
  rw [decResponse, decResponse, decodedValue_flipSign, fBits_fNeg (fCanonical_decodedValue c d w), BitVec.setWidth_xor,
    setWidth_twoPow_sign]

/-- Settles O43: the sign is applied last; and the draw does not show in a value that is not a NaN. -/
theorem decOfNegatedWord : Obligations.DecOfNegatedWord := by
  refine fun c w d d' => ⟨decodedValue_flipSign c d w, fun hdraw => ?_⟩
  have hsame : decResponse c d' (flipSign w) = decResponse c d (flipSign w) := by
    rcases hdraw with rfl | hnan
    · rfl
    · exact (decResponse_draw c d d' (by rw [decodedValue_flipSign, fIsNaN_fNeg, hnan])).symm
  rw [hsame, decResponse_flipSign_y]

end Sys2Proof.Machine
end

section
/-! SUPPORT and PROOFS. The statements of 43_arithmetic.md: NEG, ADD, SUB, MUL, RCPA and DIVA (R141 to R146), composed commands
(R147), and what follows on particular operands (R149, R151, R152). -/

namespace Sys2Proof

theorem Config.EMAX_eq (c : Config) : c.EMAX = -c.EMIN - 1 := by rw [EMAX, EMIN, neg_neg]

/-- The multiplier fits in a mantissa field: no power of ten is a power of two above 1. -/
theorem Config.MM_le_MMAX (c : Config) : c.MM ≤ c.MMAX := by
  have hne : 10 ^ c.D ≠ 2 ^ c.M := by
    intro heq
    rcases Nat.eq_zero_or_pos c.D with hD | hD
    · have := Nat.one_lt_two_pow (Nat.one_le_iff_ne_zero.1 c.one_le_M)
      rw [hD, pow_zero] at heq
      omega
    · have hdvd : 5 ∣ 2 ^ c.M := heq ▸ (by norm_num : 5 ∣ 10).trans (dvd_pow_self 10 hD.ne')
      exact absurd (Nat.prime_five.dvd_of_dvd_pow hdvd) (by norm_num)
  exact Nat.le_sub_one_of_lt (lt_of_le_of_ne c.MM_le hne)

end Sys2Proof

namespace Sys2Proof.Machine

open Sys2Proof.Safety

/-- A command after the conversions is decoded from its operation code alone (R57, R59). -/
theorem decode_of_opField_arithmetic {h : Header} {i : Instr} (hcode : 5 ≤ (opField (encode i)).toNat)
    (hop : opField h = opField (encode i)) : decode h = .ok i :=
  decode_of_opField_encode (not_isConversionCode_iff.2 (.inr hcode)) hop

section arithmetic
variable {c : Config}

/-! ### Packing fields that fit (R63) -/

theorem ofInt_exponent (w : BitVec c.W) : BitVec.ofInt c.E (exponent w) = w.extractLsb' c.M c.E := BitVec.ofInt_toInt

theorem ofNat_mantissa (w : BitVec c.W) : BitVec.ofNat c.M (mantissa w) = w.extractLsb' 0 c.M := by
  rw [mantissa, BitVec.ofNat_toNat, BitVec.setWidth_eq]

/-- An exponent in range packs without `OOR_X`. -/
theorem packed_of_exponent_fits (s : Bool) {e : Int} (m : Nat) (he : c.EMIN ≤ e ∧ e ≤ c.EMAX) :
    packed c s e m = ⟨cfWord s (BitVec.ofInt c.E e) (BitVec.ofNat c.M m), 0, if c.MMAX < m then 0b0010#4 else 0b0000#4⟩ := by
  rw [packed_eq_ite, if_neg (by omega), BitVec.zero_or]

theorem packed_of_fits (s : Bool) {e : Int} {m : Nat} (he : c.EMIN ≤ e ∧ e ≤ c.EMAX) (hm : m ≤ c.MMAX) :
    packed c s e m = ⟨cfWord s (BitVec.ofInt c.E e) (BitVec.ofNat c.M m), 0, 0b0000#4⟩ := by
  rw [packed_of_exponent_fits s m he, if_neg (by omega)]

theorem cfWord_of_parts (w : BitVec c.W) : cfWord (negative w) (w.extractLsb' c.M c.E) (w.extractLsb' 0 c.M) = w := by
  conv_rhs => rw [← cfWord_fields w]
  rw [signField_eq_negative]
  rfl

theorem packed_parts (w : BitVec c.W) : packed c (negative w) (exponent w) (mantissa w) = ⟨w, 0, 0b0000#4⟩ := by
  rw [packed_of_fits _ (exponent_range w) (mantissa_le w), ofInt_exponent, ofNat_mantissa, cfWord_of_parts]

/-! ### NEG (R141) -/

theorem extractLsb'_twoPow_of_le {w start len k : Nat} (hk : start + len ≤ k) :
    (BitVec.twoPow w k).extractLsb' start len = 0 := by
  ext i hi
  have hbelow : k ≠ start + i := by omega
  simp [hbelow]

/-- The word with the top bit alone is a negative zero. -/
theorem twoPow_eq_cfWord (c : Config) : BitVec.twoPow c.W (c.W - 1) = cfWord true 0 0 := by
  have hW : c.W - 1 = c.M + c.E := by simp only [Config.W]; omega
  refine word_ext ?_ ?_ ?_
  · rw [negative_cfWord, negative, BitVec.msb_twoPow]
    simp
  · rw [exponent_cfWord, exponent, extractLsb'_twoPow_of_le hW.ge]
  · rw [mantissa_cfWord, mantissa, extractLsb'_twoPow_of_le (by omega)]

theorem cfWord_xor (s t : Bool) (x y : BitVec c.E) (m n : BitVec c.M) :
    cfWord s x m ^^^ cfWord t y n = cfWord (s ^^ t) (x ^^^ y) (m ^^^ n) := by
  simp only [cfWord, BitVec.xor_append, BitVec.ofBool_xor_ofBool]

theorem flipSign_eq_xor (w : BitVec c.W) : flipSign w = w ^^^ BitVec.twoPow c.W (c.W - 1) := by
  conv_rhs => rw [← cfWord_fields w, twoPow_eq_cfWord, cfWord_xor, Bool.xor_true]
  simp only [BitVec.ofNat_eq_ofNat, BitVec.xor_zero]
  rfl

theorem flipSign_flipSign (w : BitVec c.W) : flipSign (flipSign w) = w :=
  word_ext (by simp) (by simp) (by simp)

/-! ### ADD (R142, R149) -/

/-- Beyond `D` the quotient is zero (R211 (c)): a mantissa is below `10 ^ (D + 1)`. -/
theorem div_ten_pow_of_far {m k : Nat} (hm : m ≤ c.MMAX) (hk : c.D < k) : m / 10 ^ k = 0 := by
  refine Nat.div_eq_of_lt ?_
  calc m < 2 ^ c.M := Nat.lt_of_le_pred (by positivity) hm
    _ < 10 * c.MM := c.lt_ten_mul_MM
    _ = 10 ^ (c.D + 1) := (pow_succ' 10 c.D).symm
    _ ≤ 10 ^ k := Nat.pow_le_pow_right (by norm_num) hk

theorem aligned_eq_div {m : Nat} (hm : m ≤ c.MMAX) (k : Nat) : aligned c m k = m / 10 ^ k := by
  unfold aligned
  split
  case isTrue hk => exact (div_ten_pow_of_far hm hk).symm
  case isFalse => rfl

theorem addResponse_eq_packed (a b : BitVec c.W) :
    addResponse c a b =
      packed c (exactSum (parts a) (parts b) < 0) (max (exponent a) (exponent b)) (exactSum (parts a) (parts b)).natAbs := by
  simp only [addResponse, fields_eq, aligned_eq_div (mantissa_le _)]
  rfl

theorem addResponse_eq_sumResponse (a b : BitVec c.W) : addResponse c a b = sumResponse c (parts a) (parts b) := by
  have ha := exponent_range a
  have hb := exponent_range b
  rw [addResponse_eq_packed, packed_of_exponent_fits _ _ (by omega)]
  rfl

theorem exactSum_comm (p q : Fields) : exactSum p q = exactSum q p := Int.add_comm ..

theorem sumResponse_comm (p q : Fields) : sumResponse c p q = sumResponse c q p := by
  simp only [sumResponse, exactSum_comm p q, max_comm p.e q.e]

theorem natAbs_signed (s : Bool) (m : Nat) : (signed s m).natAbs = m := by cases s <;> simp [signed]

theorem signed_lt_zero (s : Bool) (m : Nat) : decide (signed s m < 0) = (s && decide (m ≠ 0)) := by
  cases s <;> simp [signed, Nat.pos_iff_ne_zero]

/-- A sum's sign and magnitude are the sum (R142 step 4). -/
theorem signed_natAbs (z : Int) : signed (decide (z < 0)) z.natAbs = z := by
  by_cases h : z < 0
  · rw [signed, if_pos (decide_eq_true h)]
    omega
  · rw [signed, if_neg (by simpa using h)]
    omega

/-- An operand more than `D` below the other is shifted out (R149 (b)). -/
theorem exactSum_of_far {p q : Fields} (hq : q.m ≤ c.MMAX) (hfar : (c.D : Int) < p.e - q.e) : exactSum p q = signed p.s p.m := by
  have hquot : q.m / 10 ^ (p.e - q.e).toNat = 0 := div_ten_pow_of_far hq (by omega)
  simp [exactSum, hquot, signed, show ¬ p.e < q.e by omega, show q.e < p.e by omega]

theorem sumResponse_of_far {a b : BitVec c.W} (hfar : (c.D : Int) < exponent a - exponent b) :
    sumResponse c (parts a) (parts b) =
      ⟨cfWord (negative a && decide (mantissa a ≠ 0)) (a.extractLsb' c.M c.E) (a.extractLsb' 0 c.M), 0, 0b0000#4⟩ := by
  have hsum : exactSum (parts a) (parts b) = signed (negative a) (mantissa a) := exactSum_of_far (mantissa_le b) hfar
  have hmax : max (parts a).e (parts b).e = exponent a := max_eq_left (by simp only [parts]; omega)
  simp only [sumResponse, hsum, hmax, natAbs_signed, signed_lt_zero, ofInt_exponent, ofNat_mantissa,
    if_neg (not_lt.2 (mantissa_le a))]

/-! ### RCPA and DIVA (R145, R146) -/

/-- Of the exponents in range, only `EMIN` has its negation out of it. -/
theorem neg_exponent_out_iff (w : BitVec c.W) : (-exponent w < c.EMIN ∨ c.EMAX < -exponent w) ↔ exponent w = c.EMIN := by
  have := exponent_range w
  have := c.EMAX_eq
  omega

theorem rcpaResponse_eq_cfWord (w : BitVec c.W) :
    rcpaResponse c w = ⟨cfWord (negative w) (-(w.extractLsb' c.M c.E)) (w.extractLsb' 0 c.M), 0,
      if exponent w = c.EMIN then 0b0001#4 else 0b0000#4⟩ := by
  rw [rcpaResponse_eq, packed_eq_ite, BitVec.ofInt_neg, ofInt_exponent, ofNat_mantissa, if_neg (not_lt.2 (mantissa_le w)),
    BitVec.or_zero]
  simp only [neg_exponent_out_iff]

/-- The lowest exponent field is its own negation. -/
theorem neg_expField_of_lowest {w : BitVec c.W} (h : exponent w = c.EMIN) : -(w.extractLsb' c.M c.E) = w.extractLsb' c.M c.E := by
  have hE : 0 < c.E := by have := c.two_le_E; omega
  have hfield : w.extractLsb' c.M c.E = BitVec.intMin c.E := by
    refine BitVec.eq_of_toInt_eq (h.trans ?_)
    rw [BitVec.toInt_intMin_of_pos hE, Config.EMIN]
    push_cast
    rfl
  rw [hfield, BitVec.neg_intMin]

theorem rcpaResponse_of_lowest {w : BitVec c.W} (h : exponent w = c.EMIN) : rcpaResponse c w = ⟨w, 0, 0b0001#4⟩ := by
  rw [rcpaResponse_eq_cfWord, neg_expField_of_lowest h, cfWord_of_parts, if_pos h]

/-- `OOR_X` of either of two steps (R147). -/
theorem oorX_or_oorX (p q : Prop) [Decidable p] [Decidable q] :
    (if p then 0b0001#4 else 0b0000#4) ||| (if q then 0b0001#4 else 0b0000#4) = if p ∨ q then 0b0001#4 else 0b0000#4 := by
  by_cases hp : p <;> by_cases hq : q <;> simp [hp, hq]

/-- DIVA's product is MUL's with the negated exponent field, and an `OOR_X` of either step is one of the two (R146). -/
theorem divaResponse_eq (a b : BitVec c.W) :
    let er := exponent a + (-(b.extractLsb' c.M c.E)).toInt
    let mr := mantissa a * mantissa b / c.MM
    divaResponse c a b = ⟨cfWord (negative a ^^ negative b) (BitVec.ofInt c.E er) (BitVec.ofNat c.M mr), 0,
      (if exponent b = c.EMIN ∨ er < c.EMIN ∨ c.EMAX < er then 0b0001#4 else 0b0000#4) |||
      (if c.MMAX < mr then 0b0010#4 else 0b0000#4)⟩ := by
  rw [divaResponse, rcpaResponse_eq_cfWord]
  dsimp only
  rw [mulResponse_eq, negative_cfWord, exponent_cfWord, mantissa_cfWord, packed_eq_ite, ← BitVec.or_assoc, oorX_or_oorX]
  rfl

end arithmetic

/-! ### The six commands -/

/-- Settles O45: a word is its three fields, and NEG changes the first alone. -/
theorem negResult : Obligations.NegResult :=
  ⟨fun _ => decode_of_opField_arithmetic (i := .neg) (by decide),
    fun s => answers_of_response (congrArg (Response.mk · 0 0) (flipSign_eq_xor s.portA)), fun _ => flipSign_flipSign⟩

/-- Settles O46, since the powers of ten that ADD leaves out exceed every mantissa. -/
theorem addResult : Obligations.AddResult :=
  ⟨fun _ => decode_of_opField_arithmetic (i := .add) (by decide),
    fun s => answers_of_response (addResponse_eq_sumResponse s.portA s.portB)⟩

theorem parts_flipSign {c : Config} (w : BitVec c.W) : parts (flipSign w) = ⟨!negative w, exponent w, mantissa w⟩ := by
  simp [parts]

/-- Settles O47, from ADD's response on the flipped operand. -/
theorem subResult : Obligations.SubResult := by
  refine ⟨fun _ => decode_of_opField_arithmetic (i := .sub) (by decide), fun s => answers_of_response ?_⟩
  rw [← parts_flipSign]
  exact addResponse_eq_sumResponse s.portA (flipSign s.portB)

/-- Settles O48: the product of the fields, packed. -/
theorem mulResult : Obligations.MulResult :=
  ⟨fun _ => decode_of_opField_arithmetic (i := .mul) (by decide),
    fun s => answers_of_response ((mulResponse_eq s.portA s.portB).trans (packed_eq_ite ..))⟩

/-- Settles O49: of the exponents only `EMIN` has no negation, and its field is its own. -/
theorem rcpaResult : Obligations.RcpaResult :=
  ⟨fun _ => decode_of_opField_arithmetic (i := .rcpa) (by decide),
    fun s => ⟨answers_of_response (rcpaResponse_eq_cfWord s.portA), fun h => answers_of_response (rcpaResponse_of_lowest h)⟩⟩

/-- Settles O50: RCPA's result, as MUL reads it. -/
theorem divaResult : Obligations.DivaResult :=
  ⟨fun _ => decode_of_opField_arithmetic (i := .diva) (by decide),
    fun s => answers_of_response (divaResponse_eq s.portA s.portB)⟩

/-- Settles O51: NEG's status is 0, and DIVA is defined by its two steps. -/
theorem composedCommandsAreTheirSequences : Obligations.ComposedCommandsAreTheirSequences :=
  fun _ _ _ _ _ _ _ _ _ _ _ => ⟨congrArg (Response.mk _ _) BitVec.zero_or.symm, rfl⟩

/-! ### ADD and MUL on particular operands (R149, R151, R153) -/

/-- Settles O52: the fields enter ADD's and MUL's responses through a sum, a maximum and a product. -/
theorem addAndMulCommute : Obligations.AddAndMulCommute := by
  refine fun c a b => ⟨?_, ?_⟩
  · rw [addResponse_eq_sumResponse, addResponse_eq_sumResponse, sumResponse_comm]
  · rw [mulResponse_eq, mulResponse_eq, Bool.xor_comm, Int.add_comm, Nat.mul_comm]

/-- Settles O53: the operand shifted out adds nothing; for the second order of operands, ADD is commutative. -/
theorem addDropsFarSmallerOperand : Obligations.AddDropsFarSmallerOperand := by
  refine fun s => ⟨fun hfar => answers_of_response ?_, fun hfar => answers_of_response ?_⟩
  · exact (addResponse_eq_sumResponse s.portA s.portB).trans (sumResponse_of_far hfar)
  · exact (addResponse_eq_sumResponse s.portA s.portB).trans ((sumResponse_comm ..).trans (sumResponse_of_far hfar))

/-- Settles O54: without a flag packing keeps the sum's sign and magnitude, which are the sum. -/
theorem addWithoutFlagIsExact : Obligations.AddWithoutFlagIsExact := by
  intro c a b hst
  rw [addResponse_eq_packed] at hst ⊢
  obtain ⟨hs, he, hm⟩ := fields_packed_of_no_flag hst
  rw [hs, he, hm]
  exact ⟨signed_natAbs _, rfl⟩

/-- Settles O58: `mA * MM / MM` is `mA`, where `MM` is the mantissa of the second operand, since it fits. -/
theorem mulByOneIsIdentity : Obligations.MulByOneIsIdentity := by
  refine fun s hB => answers_of_response ?_
  change mulResponse s.cfg s.portA s.portB = _
  have hm : mantissa s.portB = s.cfg.MM := by rw [hB, mantissa_cfWord, toNat_ofNat_of_fits s.cfg.MM_le_MMAX]
  have hquot : mantissa s.portA * s.cfg.MM / s.cfg.MM = mantissa s.portA := Nat.mul_div_cancel _ (Nat.pow_pos (by norm_num))
  have he : exponent s.portB = 0 := by
    rw [hB, exponent_cfWord]
    exact BitVec.toInt_zero
  have hs : negative s.portB = false := by rw [hB, negative_cfWord]
  rw [mulResponse_eq, hm, hquot, he, hs, Int.add_zero, Bool.xor_false, packed_parts]

/-! ### RCPA and DIVA on particular operands (R152) -/

/-- Settles O59: the first negation is exact, and the second takes it back. -/
theorem rcpaTwiceIsIdentity : Obligations.RcpaTwiceIsIdentity := by
  intro c w hlow
  have hst : (rcpaResponse c w).st = 0 := by
    rw [rcpaResponse_eq_cfWord, if_neg hlow]
    rfl
  refine ⟨hst, ?_⟩
  rw [rcpaResponse_eq w] at hst ⊢
  obtain ⟨hs, he, hm⟩ := fields_packed_of_no_flag hst
  rw [rcpaResponse_eq, hs, he, hm, neg_neg, packed_parts]
  rfl

/-- The zero word is its own reciprocal. -/
theorem rcpaResponse_zero (c : Config) : rcpaResponse c 0 = ⟨0, 0, 0b0000#4⟩ := by
  rw [rcpaResponse_eq, exponent_zero, neg_zero, ← exponent_zero c, packed_parts]

theorem mulResponse_zero {c : Config} (a : BitVec c.W) :
    mulResponse c a 0 = ⟨cfWord (negative a) (a.extractLsb' c.M c.E) 0, 0, 0b0000#4⟩ := by
  rw [mulResponse_eq, negative_zero, exponent_zero, mantissa_zero, Bool.xor_false, Int.add_zero, Nat.mul_zero, Nat.zero_div,
    packed_of_fits _ (exponent_range a) (Nat.zero_le _), ofInt_exponent]
  rfl

/-- Settles O60: the zero word's reciprocal is the zero word, and MUL by it gives a zero. -/
theorem divaByZeroWord : Obligations.DivaByZeroWord := by
  refine fun s hB => answers_of_response ?_
  change divaResponse s.cfg s.portA s.portB = _
  rw [hB, divaResponse, rcpaResponse_zero, mulResponse_zero]
  exact congrArg (Response.mk _ _) BitVec.zero_or

end Sys2Proof.Machine
end

section
/-! SUPPORT and PROOFS. The statements of 60_exceptions.md: no edge stops the machine (R179), and which command can set which bit of
the status (R170 to R175). -/

namespace Sys2Proof.Machine

open Sys2Proof.Safety

/-! ### Every edge completes (R179, R203, R205) -/

/-- Settles O13: an accepted command runs to a next state, whatever its header; the rest of an edge only moves responses. -/
theorem everyStepCompletes : Obligations.EveryStepCompletes := by
  intro s
  cases hacc : s.accepts with
  | true => exact ⟨_, _, _, _, step_of_accepts hacc⟩
  | false => exact ⟨_, _, _, _, step_of_not_accepts hacc⟩

/-! ### The bits that each kind of response can have (R171 to R174) -/

section kinds
variable {c : Config} {p q : Response c}

theorem oorX_invalid (c : Config) : (Response.invalid c).oorX = false := by
  change invStatus.getLsbD 0 = false
  decide

theorem oorM_invalid (c : Config) : (Response.invalid c).oorM = false := by
  change invStatus.getLsbD 1 = false
  decide

theorem oorI_invalid (c : Config) : (Response.invalid c).oorI = false := by
  change invStatus.getLsbD 2 = false
  decide

theorem ScalarResponse.oorX_eq_false (h : ScalarResponse p) : p.oorX = false := by
  obtain rfl | ⟨y, i, rfl⟩ := h
  · exact oorX_invalid c
  · exact oorX_mk_status ..

theorem ScalarResponse.oorM_eq_false (h : ScalarResponse p) : p.oorM = false := by
  obtain rfl | ⟨y, i, rfl⟩ := h
  · exact oorM_invalid c
  · exact oorM_mk_status ..

theorem WordResponse.oorI_eq_false (h : WordResponse p) : p.oorI = false := by
  obtain rfl | ⟨r, x, m, rfl⟩ := h
  · exact oorI_invalid c
  · exact oorI_mk_status ..

theorem oorI_ite (b : Prop) [Decidable b] (hp : p.oorI = false) (hq : q.oorI = false) :
    (if b then p else q).oorI = false := by
  split <;> assumption

/-- A response that is invalid only for want of a condition says by its `INV` that the condition failed. -/
theorem not_of_inv_ite {b : Prop} [Decidable b] (hp : p.inv = false)
    (h : (if b then p else Response.invalid c).inv = true) : ¬ b := by
  intro hb
  rw [if_pos hb, hp] at h
  cases h

end kinds

section commands
variable {c : Config}

/-! ### The bits that the arithmetic commands do not set -/

/-- The larger of two exponents in range is in range (R142, R171); SUB is an ADD. -/
theorem oorX_addResponse (a b : BitVec c.W) : (addResponse c a b).oorX = false := by
  have ha := exponent_range a
  have hb := exponent_range b
  have hmax : exponentOutOfRange c (max (exponent a) (exponent b)) = false :=
    exponentOutOfRange_eq_false_iff.2 (by omega)
  rw [addResponse_eq_packed]
  exact (oorX_mk_status ..).trans hmax

/-- RCPA keeps the mantissa, which is in range (R145, R172). -/
theorem oorM_rcpaResponse (a : BitVec c.W) : (rcpaResponse c a).oorM = false := by
  rw [rcpaResponse_eq]
  exact (oorM_mk_status ..).trans (mantissaOutOfRange_eq_false_iff.2 (mantissa_le a))

/-- The statuses that DIVA ORs are both without `INV` (R147). -/
theorem inv_divaResponse (a b : BitVec c.W) : (divaResponse c a b).inv = false :=
  (congrArg (fun st => Response.inv (⟨_, _, st⟩ : Response c)) (status_or_status ..)).trans (inv_mk_status ..)

/-! ### R175's table, a column at a time -/

variable {i : Instr} {m : Command c} {d : Nat}

theorem instr_of_oorX_response (h : (response c i m d).oorX = true) : i = .enc ∨ i = .mul ∨ i = .rcpa ∨ i = .diva := by
  cases i with
  | enc | mul | rcpa | diva => simp
  | b2u | b2s | u2b | s2b | dexp | dec => cases h.symm.trans (scalarResponse_response _ m d rfl).oorX_eq_false
  | zero | neg => cases h.symm.trans (oorX_mk_status ..)
  | add | sub => cases h.symm.trans (oorX_addResponse ..)

theorem instr_of_oorM_response (h : (response c i m d).oorM = true) :
    i = .enc ∨ i = .add ∨ i = .sub ∨ i = .mul ∨ i = .diva := by
  cases i with
  | enc | add | sub | mul | diva => simp
  | b2u | b2s | u2b | s2b | dexp | dec => cases h.symm.trans (scalarResponse_response _ m d rfl).oorM_eq_false
  | zero | neg => cases h.symm.trans (oorM_mk_status ..)
  | rcpa => cases h.symm.trans (oorM_rcpaResponse m.a)

theorem instr_of_oorI_response (h : (response c i m d).oorI = true) : ∃ n, i = .u2b n ∨ i = .s2b n := by
  cases i with
  | u2b n => exact ⟨n, .inl rfl⟩
  | s2b n => exact ⟨n, .inr rfl⟩
  | b2u | b2s => cases h.symm.trans (oorI_ite _ (oorI_mk_status ..) (oorI_invalid c))
  | dexp => cases h.symm.trans (oorI_ite _ (oorI_invalid c) (oorI_mk_status ..))
  | dec => cases h.symm.trans (oorI_mk_status ..)
  | zero | enc | neg | add | sub | mul | rcpa | diva =>
    cases h.symm.trans (wordResponse_response _ m d rfl).oorI_eq_false

theorem instr_of_inv_response (h : (response c i m d).inv = true) : i.wellFormed = false ∨ i = .dexp ∨ i = .enc := by
  cases i with
  | dexp | enc => simp
  | b2u n | u2b n =>
    exact .inl ((isNone_checkUnsigned n).trans (Bool.eq_false_iff.2 (not_of_inv_ite (inv_mk_status ..) h)))
  | b2s n | s2b n =>
    exact .inl ((isNone_checkSigned n).trans (Bool.eq_false_iff.2 (not_of_inv_ite (inv_mk_status ..) h)))
  | zero | dec | neg | add | sub | mul | rcpa => cases h.symm.trans (inv_mk_status ..)
  | diva => cases h.symm.trans (inv_divaResponse m.a m.b)

end commands

/-- Settles O22, a bit at a time: each is false, whatever the operands, for the commands whose cell of the table is blank. -/
theorem statusBitsByCommand : Obligations.StatusBitsByCommand :=
  fun _ _ _ _ => ⟨instr_of_oorX_response, instr_of_oorM_response, instr_of_oorI_response, instr_of_inv_response⟩

end Sys2Proof.Machine
end

section
/-! SUPPORT and PROOFS. The statements of 70_reset_and_hazards.md: reset (R196, R197) and the handshake of commands and responses
(R200 to R202, R210), from what an edge does with a command accepted and without one. -/

namespace Sys2Proof.Machine

open Sys2Proof.Safety

/-! ### Acceptance, and the response that is up at an edge (R200) -/

section presenting
variable {s : State}

theorem State.accepts_of_rst (h : s.edge.rst = true) : s.accepts = false := by simp [State.accepts, h]

theorem State.rst_of_accepts (h : s.accepts = true) : s.edge.rst = false := by
  obtain ⟨_, hrst⟩ := Bool.and_eq_true_iff.1 h
  exact (Bool.not_eq_true' _).mp hrst

theorem State.accepts_of_not_rst (h : s.edge.rst = false) : s.accepts = (s.edge.cmdValid && s.cmdReady) := by
  simp [State.accepts, h]

/-- A command taken with none in flight is answered combinationally by a unit that is done at once. -/
theorem State.showsOffered_of_accepts (h : s.inFlight = []) (hacc : s.accepts = true) : s.showsOffered = s.edge.unitDone := by
  simp_all [State.showsOffered, State.accepts, State.cmdReady]

/-- A response that is up for the command on offer is taken only with that command accepted. -/
theorem State.rspReady_of_showsOffered (hacc : s.accepts = false) (h : s.showsOffered = true) : s.edge.rspReady = false := by
  simp_all [State.showsOffered, State.accepts, State.cmdReady]

theorem State.showsOffered_of_inFlight {p : Response s.cfg} {rest : List (Response s.cfg)} (h : s.inFlight = p :: rest) :
    s.showsOffered = false := by
  simp [State.showsOffered, h]

theorem State.presents_of_inFlight {p : Response s.cfg} {rest : List (Response s.cfg)} (h : s.inFlight = p :: rest) :
    s.presents = s.oldestDone := by
  rw [State.presents, State.showsOffered_of_inFlight h, Bool.or_false]

theorem State.oldestDone_of_empty (h : s.inFlight = []) (hvalid : s.rspValid = false) : s.oldestDone = false := by
  simp [State.oldestDone, h, hvalid]

theorem State.presents_of_empty (h : s.inFlight = []) (hvalid : s.rspValid = false) : s.presents = s.showsOffered := by
  rw [State.presents, State.oldestDone_of_empty h hvalid, Bool.false_or]

/-- Without an acceptance, what is up and taken is the oldest response in flight. -/
theorem State.presents_and_rspReady (hacc : s.accepts = false) : (s.presents && s.edge.rspReady) = s.delivers := by
  rw [State.presents, State.delivers]
  cases hshows : s.showsOffered with
  | true => simp [State.rspReady_of_showsOffered hacc hshows]
  | false => rw [Bool.or_false]

/-- With the command accepted at the edge counted in, the oldest is done exactly where `rsp_valid = 1`. -/
theorem State.oldestDone_respond (hacc : s.accepts = true) (p : Response s.cfg) : (s.respond p).oldestDone = s.presents := by
  have hdone : (s.respond p).oldestDone = (s.rspValid || s.edge.unitDone) := by
    have hne : (s.inFlight ++ [p]).isEmpty = false := by rw [List.isEmpty_eq_false_iff]; simp
    simp [State.oldestDone, hne]
  cases h : s.inFlight with
  | nil => rw [hdone, State.presents, State.showsOffered_of_accepts h hacc]; simp [State.oldestDone, h]
  | cons q rest => rw [hdone, State.presents_of_inFlight h]; simp [State.oldestDone, h]

theorem ports_of_showsOffered (h : s.showsOffered = true) : s.ports = some (transact s.cfg s.command s.draw) := if_pos h

theorem ports_of_oldestDone {p : Response s.cfg} {rest : List (Response s.cfg)} (h : s.inFlight = p :: rest)
    (hdone : s.oldestDone = true) : s.ports = some p := by
  simp [State.ports, State.showsOffered_of_inFlight h, hdone, h]

/-- Where the oldest command in flight is done, its response stands on the ports. -/
theorem toList_ports_of_oldestDone (hsound : s.rspValid = true → s.inFlight ≠ []) (hdone : s.oldestDone = true) :
    s.ports.toList = s.inFlight.take 1 := by
  cases h : s.inFlight with
  | nil =>
    have hvalid : s.rspValid = false := Bool.eq_false_iff.2 fun hv => hsound hv h
    cases (State.oldestDone_of_empty h hvalid).symm.trans hdone
  | cons p rest => rw [ports_of_oldestDone h hdone]; rfl

/-- What stands on the ports is the oldest response, the command on offer counted in as the youngest. -/
theorem toList_ports_of_presents (hsound : s.rspValid = true → s.inFlight ≠ []) (hup : s.presents = true) :
    s.ports.toList = (s.inFlight ++ [transact s.cfg s.command s.draw]).take 1 := by
  cases h : s.inFlight with
  | nil =>
    have hvalid : s.rspValid = false := Bool.eq_false_iff.2 fun hv => hsound hv h
    rw [State.presents_of_empty h hvalid] at hup
    rw [ports_of_showsOffered hup]
    rfl
  | cons p rest =>
    rw [State.presents_of_inFlight h] at hup
    rw [ports_of_oldestDone h hup]
    rfl

end presenting

/-! ### What an edge does (R196, R197, R200) -/

/-- The accepted command's response joins those in flight; then the oldest is delivered if it is up and taken. -/
theorem step_of_accepts_eq {s : State} (hacc : s.accepts = true) {p : Response s.cfg}
    (hp : transact s.cfg s.command s.draw = p) :
    step s = .next
      { s with
        host := s.host.tail
        inFlight := if s.presents && s.edge.rspReady then (s.inFlight ++ [p]).drop 1 else s.inFlight ++ [p]
        rspValid := s.presents && !s.edge.rspReady
        received := if s.presents && s.edge.rspReady then s.received ++ (s.inFlight ++ [p]).take 1 else s.received
        draw := s.draw + 1 } := by
  rw [step_of_accepts hacc, hp, State.finishEdge, State.delivers, State.oldestDone_respond hacc]
  simp only [State.respond_edge, State.rst_of_accepts hacc, Bool.not_false, Bool.and_true]
  rfl

/-- Without an acceptance the oldest response in flight is delivered, or stays, or is dropped by `rst`. -/
theorem step_of_not_accepts_eq {s : State} (hacc : s.accepts = false) :
    step s = .next
      { s with
        host := s.host.tail
        inFlight := if s.edge.rst then [] else if s.presents && s.edge.rspReady then s.inFlight.drop 1 else s.inFlight
        rspValid := s.oldestDone && !s.edge.rspReady && !s.edge.rst
        received := if s.presents && s.edge.rspReady then s.received ++ s.inFlight.take 1 else s.received } := by
  rw [step_of_not_accepts hacc, State.presents_and_rspReady hacc]
  rfl

/-! ### Edges with reset, with a command, and with neither (R196, R200) -/

/-- Settles O9: at such an edge no command is accepted. -/
theorem resetEdgeDropsUnanswered : Obligations.ResetEdgeDropsUnanswered := by
  intro s hrst
  refine ⟨by simp [State.cmdReady, hrst], ?_⟩
  simpa [hrst] using step_of_not_accepts_eq (State.accepts_of_rst hrst)

/-- Settles O10: every instruction runs to a next state, with the response that the pure function gives its command. -/
theorem stepRunsDecodedCommand : Obligations.StepRunsDecodedCommand := by
  intro s i hvalid hready hrst hdecode
  have hacc : s.accepts = true := by rw [State.accepts_of_not_rst hrst, hvalid, hready]; rfl
  refine ⟨_, exec_eq_respond i s, ?_⟩
  rw [step_of_accepts hacc, transact_of_decode s.draw hdecode]

/-- Settles O11: without reset, what the handshake says is the whole of what such an edge does. -/
theorem edgeWithoutCommandOnlyDelivers : Obligations.EdgeWithoutCommandOnlyDelivers := by
  intro s hnone hrst
  have hacc : s.accepts = false := (State.accepts_of_not_rst hrst).trans hnone
  simpa [hrst] using step_of_not_accepts_eq hacc

/-! ### The reset state (R196) -/

theorem soundState_resetOf (c : Config) : SoundState (State.resetOf c) :=
  ⟨fun _ h => absurd h List.not_mem_nil, fun _ h => absurd h List.not_mem_nil, fun h => absurd h Bool.false_ne_true⟩

/-- Settles O18: no response is in flight or received, and `rsp_valid` is down. -/
theorem resetMeetsInvariant : Obligations.ResetMeetsInvariant :=
  ⟨soundState_resetOf Config.common, soundState_resetOf⟩

/-! ### A response stays until it is taken (R200) -/

section waiting
variable {s : State}

/-- A response in flight that is up and not taken is up after the edge, whatever command the edge accepts. -/
theorem step_keeps_oldest {p : Response s.cfg} {rest : List (Response s.cfg)} (hflight : s.inFlight = p :: rest)
    (hup : s.presents = true) (hready : s.edge.rspReady = false) (hrst : s.edge.rst = false) :
    ∃ (more : List (Response s.cfg)) (d : Nat),
      step s = .next ⟨s.cfg, s.host.tail, p :: (rest ++ more), true, s.received, d⟩ := by
  cases hacc : s.accepts with
  | true =>
    exact ⟨[transact s.cfg s.command s.draw], s.draw + 1, by
      simpa [hready, hup, hflight] using step_of_accepts_eq hacc rfl⟩
  | false =>
    have hdone : s.oldestDone = true := State.presents_of_inFlight hflight ▸ hup
    exact ⟨[], s.draw, by simpa [hready, hrst, hdone, hflight] using step_of_not_accepts_eq hacc⟩

/-- So is the response of a command accepted at the edge with none before it. -/
theorem step_keeps_accepted (hflight : s.inFlight = []) (hup : s.presents = true) (hready : s.edge.rspReady = false)
    (hacc : s.accepts = true) :
    step s = .next ⟨s.cfg, s.host.tail, [transact s.cfg s.command s.draw], true, s.received, s.draw + 1⟩ := by
  simpa [hready, hup, hflight] using step_of_accepts_eq hacc rfl

/-- An edge with nothing in flight and no command accepted leaves nothing in flight and delivers nothing. -/
theorem step_of_empty (hflight : s.inFlight = []) (hvalid : s.rspValid = false) (hacc : s.accepts = false) :
    step s = .next ⟨s.cfg, s.host.tail, [], false, s.received, s.draw⟩ := by
  simpa [hflight, State.oldestDone_of_empty hflight hvalid] using step_of_not_accepts_eq hacc

theorem received_eq_ports {l : List (Response s.cfg)}
    (hports : (s.presents && s.edge.rspReady) = true → s.ports.toList = l.take 1) :
    (if s.presents && s.edge.rspReady then s.received ++ l.take 1 else s.received) =
      if s.presents && s.edge.rspReady then s.received ++ s.ports.toList else s.received :=
  ite_congr rfl (fun htaken => by rw [hports htaken]) fun _ => rfl

/-- What an edge delivers is what stands on the ports. -/
theorem step_delivers_ports (hsound : s.rspValid = true → s.inFlight ≠ []) :
    ∃ (inF : List (Response s.cfg)) (v : Bool) (d : Nat),
      step s = .next ⟨s.cfg, s.host.tail, inF, v,
        if s.presents && s.edge.rspReady then s.received ++ s.ports.toList else s.received, d⟩ := by
  cases hacc : s.accepts with
  | true =>
    have hstep := step_of_accepts_eq hacc rfl
    rw [received_eq_ports fun htaken => toList_ports_of_presents hsound (Bool.and_eq_true_iff.1 htaken).1] at hstep
    exact ⟨_, _, _, hstep⟩
  | false =>
    have hstep := step_of_not_accepts_eq hacc
    have hdone (htaken : (s.presents && s.edge.rspReady) = true) : s.oldestDone = true :=
      (Bool.and_eq_true_iff.1 ((State.presents_and_rspReady hacc).symm.trans htaken)).1
    rw [received_eq_ports fun htaken => toList_ports_of_oldestDone hsound (hdone htaken)] at hstep
    exact ⟨_, _, _, hstep⟩

end waiting

/-- Settles O15: a clause for a command in flight, one for a command accepted, one for a command on offer, and the delivery. -/
theorem responseStaysUntilTaken : Obligations.ResponseStaysUntilTaken := by
  refine ⟨fun s p rest hflight hup hready hrst => ?_, fun s hflight hvalid hup hready hacc => ?_,
    fun s hflight hvalid hup hacc => ?_, fun s hsound => step_delivers_ports hsound⟩
  · have hdone : s.oldestDone = true := State.presents_of_inFlight hflight ▸ hup
    exact ⟨ports_of_oldestDone hflight hdone, step_keeps_oldest hflight hup hready hrst⟩
  · have hshows : s.showsOffered = true := State.presents_of_empty hflight hvalid ▸ hup
    exact ⟨ports_of_showsOffered hshows, step_keeps_accepted hflight hup hready hacc⟩
  · have hshows : s.showsOffered = true := State.presents_of_empty hflight hvalid ▸ hup
    refine ⟨State.rspReady_of_showsOffered hacc hshows, ports_of_showsOffered hshows, step_of_empty hflight hvalid hacc,
      fun e es _ hheld hup' => ?_⟩
    rw [State.presents_of_empty rfl rfl] at hup'
    rw [ports_of_showsOffered hup', ports_of_showsOffered hshows, ← hheld]
    rfl

/-! ### Every response is delivered (R201, R210) -/

/-- An edge that offers no command, at which the oldest is done and the host takes the response, delivers it if there is one. -/
theorem step_delivers_oldest {s : State} (hrst : s.edge.rst = false) (hnone : s.edge.cmdValid = false)
    (hready : s.edge.rspReady = true) (hdone : s.edge.unitDone = true) :
    step s = .next ⟨s.cfg, s.host.tail, s.inFlight.drop 1, false, s.received ++ s.inFlight.take 1, s.draw⟩ := by
  have hacc : s.accepts = false := by rw [State.accepts_of_not_rst hrst, hnone, Bool.false_and]
  have hdelivers : s.delivers = (s.rspValid || !s.inFlight.isEmpty) := by simp [State.delivers, State.oldestDone, hready, hdone]
  rw [step_of_not_accepts_eq hacc, State.presents_and_rspReady hacc, hdelivers, hrst, hready]
  cases hflight : s.inFlight with
  | nil => simp
  | cons p rest => simp

/-- By induction on the edges, for any responses at the start: each edge delivers the oldest. -/
theorem run_delivers_all {c : Config} (es : List (Edge c))
    (htakes : ∀ e ∈ es, e.rst = false ∧ e.cmdValid = false ∧ e.rspReady = true ∧ e.unitDone = true)
    (inF : List (Response c)) (hlength : inF.length ≤ es.length) (v : Bool) (got : List (Response c)) (d : Nat) :
    ∃ v' : Bool, Host.Core.run Sys2Proof.core es.length (⟨c, es, inF, v, got, d⟩ : State) =
      .next ⟨c, [], [], v', got ++ inF, d⟩ := by
  induction es generalizing inF v got with
  | nil =>
    obtain rfl : inF = [] := List.length_eq_zero_iff.1 (Nat.le_zero.1 hlength)
    exact ⟨v, by rw [List.append_nil]; rfl⟩
  | cons e es ih =>
    obtain ⟨⟨hrst, hnone, hready, hdone⟩, hrest⟩ := List.forall_mem_cons.1 htakes
    have hstep := step_delivers_oldest (s := ⟨c, e :: es, inF, v, got, d⟩) hrst hnone hready hdone
    obtain ⟨v', hrun⟩ := ih hrest (inF.drop 1) (by simpa [Nat.sub_le_iff_le_add] using hlength) false (got ++ inF.take 1)
    rw [List.append_assoc, List.take_append_drop] at hrun
    exact ⟨v', (run_succ_of_step (K := Sys2Proof.core) es.length hstep).trans hrun⟩

/-! ### A combinational unit (R200, `LAT = 0`) -/

section combinational
variable {s : State} (hrst : s.edge.rst = false) (htied : s.edge.unitReady = s.edge.rspReady)
include hrst htied

theorem cmdReady_of_combinational : s.cmdReady = s.edge.rspReady := by simp [State.cmdReady, hrst, htied]

theorem accepts_of_combinational : s.accepts = (s.edge.cmdValid && s.edge.rspReady) := by
  rw [State.accepts_of_not_rst hrst, cmdReady_of_combinational hrst htied]

variable (hdone : s.edge.unitDone = true) (hflight : s.inFlight = [])
include hdone hflight

theorem showsOffered_of_combinational : s.showsOffered = s.edge.cmdValid := by
  simp [State.showsOffered, hflight, hrst, hdone, htied]

variable (hvalid : s.rspValid = false)
include hvalid

theorem presents_of_combinational : s.presents = s.edge.cmdValid := by
  rw [State.presents_of_empty hflight hvalid, showsOffered_of_combinational hrst htied hdone hflight]

theorem ports_of_combinational :
    s.ports = if s.edge.cmdValid then some (transact s.cfg s.command s.draw) else none := by
  rw [State.ports, showsOffered_of_combinational hrst htied hdone hflight, State.oldestDone_of_empty hflight hvalid]
  rfl

/-- The response is delivered at the edge that accepts the command, and nothing is left in flight. -/
theorem step_of_combinational : step s = .next ⟨s.cfg, s.host.tail, [], false,
    s.received ++ (if s.accepts then [transact s.cfg s.command s.draw] else []), if s.accepts then s.draw + 1 else s.draw⟩ := by
  cases hacc : s.accepts with
  | true =>
    obtain ⟨hoffered, hready⟩ := Bool.and_eq_true_iff.1 ((accepts_of_combinational hrst htied).symm.trans hacc)
    have hup := (presents_of_combinational hrst htied hdone hflight hvalid).trans hoffered
    simpa [hup, hready, hflight] using step_of_accepts_eq hacc rfl
  | false => simpa using step_of_empty hflight hvalid hacc

end combinational

/-- Settles O17: the run delivers a response at each edge, and a combinational unit delivers at the edge that accepts. -/
theorem everythingInFlightIsDelivered : Obligations.EverythingInFlightIsDelivered :=
  ⟨fun s htakes hlength => run_delivers_all s.host htakes s.inFlight hlength s.rspValid s.received s.draw,
    fun _ hflight hvalid hrst hdone htied =>
      ⟨presents_of_combinational hrst htied hdone hflight hvalid, cmdReady_of_combinational hrst htied,
        ports_of_combinational hrst htied hdone hflight hvalid, step_of_combinational hrst htied hdone hflight hvalid⟩⟩

end Sys2Proof.Machine
end

section
/-! SUPPORT and PROOFS. The example lines of 30_encoding.md section 8. -/

namespace Sys2Proof

/-- Settles O5: each example header is what the encoder writes for its command, fields `N` and `OP` side by side (R56). -/
theorem exampleHeadersDecode : Obligations.ExampleHeadersDecode :=
  ⟨decode_encode (.b2u 2), decode_encode (.b2s 3), decode_encode (.u2b 8), decode_encode (.s2b 8), decode_encode .dexp,
    decode_encode .enc, decode_encode .dec, decode_encode .add, decode_encode .zero⟩

end Sys2Proof
end
